-- ==== Sys2Proof/Word.lean ====
section
/-!
DEFINITION. Sys2Proof/Word.lean: the widths of the block (spec 00 section 6.1): every value is unsigned.
-/

namespace Sys2Proof

/-- An element of a buffer, `u8`. -/
abbrev Byte := BitVec 8

/-- A register or a command word, `u32`. -/
abbrev Word := BitVec 32

/-- The value `0 .. 31` of one base32 symbol (R39). -/
abbrev SymbolValue := BitVec 5

end Sys2Proof
end

