-- ==== Sys2Proof/Syntax.lean ====
section
/-!
DEFINITION. Sys2Proof/Syntax.lean: the four commands, one constructor per row of spec/opcode_table.json (R35).
-/

namespace Sys2Proof

/-- The operations of the opcode map R35. A command carries no operand: no register number, no
immediate, no address, no length; its operands are implicit and fixed per operation (R37). -/
inductive Instr where
  /-- `ENC`, 0x00000001: bytes to base32 text (R45). -/
  | enc
  /-- `DEC`, 0x00000002: base32 text to bytes, or an error (R53). -/
  | dec
  /-- `TRUNC`, 0x00000003: HOTP dynamic truncation of a 20-byte digest (R56). -/
  | trunc
  /-- `CMP`, 0x00000004: constant-time comparison of two byte strings (R60). -/
  | cmp
  deriving DecidableEq, Repr

end Sys2Proof
end

