-- ==== Sys2Proof/Decode.lean ====
section
/-!
DEFINITION. Sys2Proof/Decode.lean: the decoder of command words, total on all `2^32` words (R34, R35, R36), and
after it the encoder written from the same table.
-/

namespace Sys2Proof

/-- The field `OP = w[3:0]` of format `C` (R34). -/
def opField (w : Word) : BitVec 4 := w.extractLsb' 0 4

/-- The field `RSV = w[31:4]` of format `C` (R34): reserved, must be 0. -/
def rsvField (w : Word) : BitVec 28 := w.extractLsb' 4 28

/-- One row of the opcode map R35, matched by `w & mask = match`. -/
structure OpcodeRow where
  matchWord : Word
  mask      : Word
  instr     : Instr
  deriving DecidableEq, Repr

/-- The opcode map of R35, in its order. -/
def opcodeMap : List OpcodeRow :=
  [ { matchWord := 0x00000001, mask := 0xFFFFFFFF, instr := .enc },
    { matchWord := 0x00000002, mask := 0xFFFFFFFF, instr := .dec },
    { matchWord := 0x00000003, mask := 0xFFFFFFFF, instr := .trunc },
    { matchWord := 0x00000004, mask := 0xFFFFFFFF, instr := .cmp } ]

/-- Whether a row of the opcode map matches a command word (R35). -/
def OpcodeRow.hits (r : OpcodeRow) (w : Word) : Bool := w &&& r.mask == r.matchWord

/-- Why a word is no command (R36). Both reasons give the one error code `IllegalCommand`. -/
inductive Reject where
  /-- `RSV != 0`, whatever `OP` is. -/
  | reservedBits
  /-- `RSV = 0` and `OP` is 0 or 5 to 15. -/
  | unassignedOp
  deriving DecidableEq, Repr

/-- The command decoder (R34 to R36): total, one verdict for every word. -/
def decode (w : Word) : Except Reject Instr :=
  match opcodeMap.find? (fun r => r.hits w) with
  | some r => .ok r.instr
  | none   => .error (if rsvField w = 0 then .unassignedOp else .reservedBits)

/-- The command the decoder reads from the word `w` of `nbits` bits: a command word is a 32-bit number (R34), whose
bits above `nbits` are 0 here (log entry 13). -/
def decodeTableWord (nbits w : Nat) : Option Instr :=
  match decode (BitVec.ofNat 32 (w % 2 ^ nbits)) with
  | .ok i    => some i
  | .error _ => none

/-- The operation code of R35. -/
def opcodeOf : Instr → BitVec 4
  | .enc   => 1
  | .dec   => 2
  | .trunc => 3
  | .cmp   => 4

/-- The command word of an operation: `RSV = 0` above its `OP` (R34, R35). -/
def encode (i : Instr) : Word := (0#28 ++ opcodeOf i : BitVec 32)

end Sys2Proof
end

