-- ==== Sys2Proof/Config.lean ====
section
/-!
DEFINITION. Sys2Proof/Config.lean: what one instance of the block fixes (R5, 92 D3).
The spec leaves no value undefined (93, end of part 1), so there is no free value here.
-/

namespace Sys2Proof

/-- The block's one free parameter (R5): `MAXLEN`, the capacity in bytes of each input buffer.
Its bounds are `Config.wf` in WellFormed.lean. -/
structure Config where
  maxLen : Nat
  deriving DecidableEq, Repr

/-- The default `MAXLEN = 256` of R5, "used in every example of this spec".
DESIGN CHOICE (log entry 1): the instance that `State.reset` stands for. -/
def Config.standard : Config := { maxLen := 256 }

end Sys2Proof
end

