-- ==== Sys2Proof/Machine/HostAction.lean ====
section
/-!
DEFINITION. Sys2Proof/Machine/HostAction.lean: the four regions, the seven registers, and what the host can do to the
block (R21 to R26, spec 00 section 6.3).
-/

namespace Sys2Proof.Machine

/-- The three buffer regions of R21, in order: `A` is `IBUF_A`, `B` is `IBUF_B`, `O` is `OBUF`. -/
inductive Buffer where
  | bufA
  | bufB
  | bufO
  deriving DecidableEq, Repr

/-- The four regions of R21. -/
inductive Region where
  /-- `REG`, the seven registers. -/
  | reg
  /-- `A`, `B` or `O`. -/
  | buf (b : Buffer)
  deriving DecidableEq, Repr

/-- The seven registers of R6. -/
inductive RegName where
  | cmd
  | status
  | lenA
  | lenB
  | olen
  | res
  | off
  deriving DecidableEq, Repr

/-- One action of the host, each atomic (R28). -/
inductive HostAction where
  /-- `RegRead(off)`: a whole 32-bit word at a byte offset of `REG` (R22). -/
  | regRead (off : Nat)
  /-- `RegWrite(off, v)` (R22). A write at offset 0x00 is a command. -/
  | regWrite (off : Nat) (v : Word)
  /-- `BufRead(region, i)`: one byte (R23). -/
  | bufRead (b : Buffer) (i : Nat)
  /-- `BufWrite(region, i, b)`: one byte (R23). -/
  | bufWrite (b : Buffer) (i : Nat) (v : Byte)
  /-- `Reset` (R70). -/
  | reset
  /-- A read or a write of any width that R22 and R23 do not give the region (`bytes` is not 4 for `REG`, not 1 for a
  buffer); R26 gives it no meaning. An access of the region's own width is one of the actions above. -/
  | otherWidth (region : Region) (bytes : Nat) (off : Nat)
  deriving DecidableEq, Repr

/-- What a read gives back to the host: a `u32` (R22) or a `u8` (R23). -/
inductive Answer where
  | word (v : Word)
  | byte (v : Byte)
  deriving DecidableEq, Repr

/-- `OCAP = 8 * ceil(MAXLEN / 5)`, the capacity in bytes of `OBUF` (R5). -/
def ocap (c : Config) : Nat := 8 * ((c.maxLen + 4) / 5)

/-- The size in bytes of a buffer region (R21). -/
def bufferSize (c : Config) : Buffer → Nat
  | .bufA => c.maxLen
  | .bufB => c.maxLen
  | .bufO => ocap c

/-- The register at a byte offset of `REG` (R6): nothing at any other offset, the misaligned ones among them. -/
def regAt (off : Nat) : Option RegName :=
  if off = 0x00 then some .cmd
  else if off = 0x04 then some .status
  else if off = 0x08 then some .lenA
  else if off = 0x0C then some .lenB
  else if off = 0x10 then some .olen
  else if off = 0x14 then some .res
  else if off = 0x18 then some .off
  else none

end Sys2Proof.Machine
end

