-- ==== Sys2Proof/Machine/State.lean ====
section
/-!
DEFINITION. Sys2Proof/Machine/State.lean: the architectural state of the block (R6), why a step stops, and the state
after reset (R20).
-/

namespace Sys2Proof.Machine

/-- A buffer's contents as (index, byte) cells in one canonical form (`Memory.wf`, in Ops.lean): indices strictly
rising, and no cell equal to what an unlisted index reads as. -/
abbrev Memory := List Host.Cell

/-- What `STATUS.ERR` can hold (R8, R62): five codes, "no other value of STATUS.ERR ever occurs" (log entry 10).
The 4-bit code of each is `ErrorCode.code` in Flags.lean. -/
inductive ErrorCode where
  /-- 0: the last command succeeded, or none has run since reset. -/
  | noError
  /-- 1: DEC, the padding run or the trailing bits (R46, R48). -/
  | invalidPadding
  /-- 2: DEC, a body byte outside the alphabet (R47). -/
  | invalidAlphabet
  /-- 3: an operand length (R62). -/
  | operandLength
  /-- 4: a word that is no command (R36). -/
  | illegalCommand
  deriving DecidableEq, Repr

/-- The state. The first ten fields are every stored bit of R6 (`CMD` has no storage, R7; `STATUS` is `done` and
`err`, R8); the last three are the model's own (log entries 1, 2, 3). -/
structure State where
  /-- `STATUS.DONE` (R8). -/
  done    : Bool
  /-- `STATUS.ERR` (R8). -/
  err     : ErrorCode
  /-- `LEN_A` (R9). -/
  lenA    : Word
  /-- `LEN_B` (R10). -/
  lenB    : Word
  /-- `OLEN` (R11). -/
  olen    : Word
  /-- `RES` (R12). -/
  res     : Word
  /-- `OFF`, the four stored bits `OFFSET` (R13). -/
  off     : BitVec 4
  /-- `IBUF_A` (R14). -/
  ibufA   : Memory
  /-- `IBUF_B` (R15). -/
  ibufB   : Memory
  /-- `OBUF` (R16). -/
  obuf    : Memory
  /-- The parameter of R5, which no step changes. Not state of the spec (log entry 1). -/
  config  : Config
  /-- The host's actions that have not taken effect yet, in issue order (R29). Not state of the block (log entry 2). -/
  pending : List HostAction
  /-- What the host's latest action read; nothing if it was no read. Not state of the block (log entry 3). -/
  answer  : Option Answer
  deriving DecidableEq, Repr

/-- The block has no fault: no trap, no vector, no handler, no stuck state (R61, R4). Every error is a result in
`STATUS.ERR`. Nobody raises a fault, so there is no constructor, which is safe (log entry 11). -/
inductive Fault where
  deriving DecidableEq, Repr

/-- Host actions the spec gives no meaning (R26, 93 U9): the model does not go on past them. Each is safe: it errs
toward unprovable (log entry 5). -/
inductive Refusal where
  /-- No arm of `exec` raises it: every row of the opcode table has its meaning. -/
  | notModelled (mnemonic : String)
  /-- Raised by `otherWidthAction`: an access of a width that R22 and R23 do not give. Safe. -/
  | accessWidth
  /-- Raised by `refuseRegister`: a register access at an offset that is not word-aligned (R22, R26). Safe. -/
  | misalignedRegister
  /-- Raised by `refuseRegister`: a word-aligned offset outside the seven registers (R22, R26). Safe. -/
  | unmappedRegister
  /-- Raised by `bufReadAction` and `bufWriteAction`: an index at or above the region's size (R23, R26). Safe. -/
  | bufferIndex
  deriving DecidableEq, Repr

/-- The state right after `Reset` (R20, R70): "every stored bit of the block is 0". The model's own fields: the
spec's default `MAXLEN` (log entry 1), no action waiting (log entry 2), no answer (log entry 3). -/
def State.reset : State :=
  { done := false, err := .noError, lenA := 0, lenB := 0, olen := 0, res := 0, off := 0,
    ibufA := [], ibufB := [], obuf := [],
    config := Config.standard, pending := [], answer := none }

end Sys2Proof.Machine
end

