-- ==== Sys2Proof/Machine/Ops.lean ====
section
/-!
DEFINITION. Sys2Proof/Machine/Ops.lean: the named operations over buffers and registers, and the frame every command
runs in (R41): clearing the outputs, completing, and completing with an error (R64).
-/

namespace Sys2Proof.Machine

/-- What an unlisted index reads as: 0x00, the reset value of every byte of every buffer (R20). -/
def unlistedByte : Byte := 0

/-- The canonical form of a buffer's contents. -/
abbrev Memory.wf (m : Memory) : Prop :=
  m.Pairwise (fun p q => p.1 < q.1) ∧ ∀ p ∈ m, p.2 ≠ unlistedByte

/-- Every listed index is below `n`. -/
abbrev Memory.below (n : Nat) (m : Memory) : Prop := ∀ p ∈ m, p.1 < n

/-- Read of one byte, `BUF[i]` (spec 00 section 6.2). -/
def Memory.read : Memory → Nat → Byte
  | [], _ => unlistedByte
  | (j, v) :: m, i => if j = i then v else Memory.read m i

/-- Write of one byte, `BUF[i] <- b` (spec 00 section 6.2), keeping the canonical form. -/
def Memory.write : Memory → Nat → Byte → Memory
  | [], i, b => if b = unlistedByte then [] else [(i, b)]
  | (j, v) :: m, i, b =>
    if i < j then
      if b = unlistedByte then (j, v) :: m else (i, b) :: (j, v) :: m
    else if i = j then
      if b = unlistedByte then m else (i, b) :: m
    else (j, v) :: Memory.write m i b

/-- `MemRead(BUF, i, n)`, the byte string `BUF[i] .. BUF[i+n-1]` (spec 00 section 6.2). -/
def Memory.readBytes (m : Memory) : (i n : Nat) → List Byte
  | _, 0 => []
  | i, n + 1 => m.read i :: Memory.readBytes m (i + 1) n

/-- `MemWrite(BUF, i, n, s)` with `n = len(s)` (spec 00 section 6.2). -/
def Memory.writeBytes (m : Memory) : (i : Nat) → List Byte → Memory
  | _, [] => m
  | i, b :: s => Memory.writeBytes (m.write i b) (i + 1) s

/-- A buffer all of whose bytes are 0. -/
def Memory.cleared : Memory := []

/-- The contents of a buffer region (R21). -/
def readBuffer (s : State) : Buffer → Memory
  | .bufA => s.ibufA
  | .bufB => s.ibufB
  | .bufO => s.obuf

/-- `BUF[i] <- b` of a host: `OBUF` ignores it (R25, R16). -/
def writeBuffer (s : State) (b : Buffer) (i : Nat) (v : Byte) : State :=
  match b with
  | .bufA => { s with ibufA := s.ibufA.write i v }
  | .bufB => { s with ibufB := s.ibufB.write i v }
  | .bufO => s

/-- The first lines of `exec(w)` in R41: every command first clears `OLEN`, `RES`, `OFF`, all of `OBUF` and
`STATUS.ERR`. -/
def beginCommand (s : State) : State :=
  { s with olen := 0, res := 0, off := 0, obuf := Memory.cleared, err := .noError }

/-- The line `done` of R41. -/
def completeCommand (s : State) : State := { s with done := true }

/-- `fail(c)` of R41, `raise` of spec 00 section 6.2: complete the command with the code `c` and no result (R64).
It is the block's whole "trap entry": nothing is saved and control goes nowhere; and it needs no return (R65). -/
def raiseError (c : ErrorCode) (s : State) : State :=
  completeCommand { beginCommand s with err := c }

/-- Complete a command with a result string: `MemWrite(OBUF, 0, len(t), t)`, `OLEN <- len(t)` (R41, ops 1 and 2). -/
def completeWithString (t : List Byte) (s : State) : State :=
  completeCommand
    { beginCommand s with obuf := Memory.writeBytes Memory.cleared 0 t, olen := BitVec.ofNat 32 t.length }

/-- Complete a command with a scalar result in `RES` and an offset in `OFF` (R41, ops 3 and 4). -/
def completeWithScalar (o : BitVec 4) (v : Word) (s : State) : State :=
  completeCommand { beginCommand s with off := o, res := v }

/-- The host hands the block one more action, ahead of those that wait. -/
def State.issue (s : State) (a : HostAction) : State := { s with pending := a :: s.pending }

end Sys2Proof.Machine
end

