-- ==== Sys2Proof/Machine/Operands.lean ====
section
/-!
DEFINITION. Sys2Proof/Machine/Operands.lean: the implicit operands of the commands (R37), the bit strings of the codec
(spec 00 section 6.1, R27), and the checks of the operand lengths (R41).
-/

namespace Sys2Proof.Machine

/-- Operand A: `MemRead(IBUF_A, 0, LEN_A)` (R9, R37). -/
def operandA (s : State) : List Byte := s.ibufA.readBytes 0 s.lenA.toNat

/-- Operand B: `MemRead(IBUF_B, 0, LEN_B)` (R10, R37). -/
def operandB (s : State) : List Byte := s.ibufB.readBytes 0 s.lenB.toNat

/-- The digest of TRUNC: `MemRead(IBUF_A, 0, 20)` (R56). -/
def digestOperand (s : State) : List Byte := s.ibufA.readBytes 0 20

/-- `LEN_A > MAXLEN` (R41, R62), on natural numbers. -/
def lenATooLong (s : State) : Bool := decide (s.lenA.toNat > s.config.maxLen)

/-- `LEN_B > MAXLEN` (R41, R62), checked by CMP only. -/
def lenBTooLong (s : State) : Bool := decide (s.lenB.toNat > s.config.maxLen)

/-- The bit string of a value, most significant bit first: `bits8` and `bits5` of spec 00 section 6.1. -/
def bitString {n : Nat} (v : BitVec n) : List Bool := (List.range n).map (fun k => v.getMsbD k)

/-- `num(t)`: the unsigned number a bit string spells, leftmost bit most significant (spec 00 section 6.1). -/
def num (t : List Bool) : Nat := t.foldl (fun acc b => 2 * acc + b.toNat) 0

/-- `t[i .. i+k)`: the substring of `k` elements from `i` (spec 00 section 6.1). -/
def slice {α : Type} (t : List α) (i k : Nat) : List α := (t.drop i).take k

/-- `s[i]`, for an index inside the string. -/
def byteAt (s : List Byte) (i : Nat) : Byte := s.getD i 0

end Sys2Proof.Machine
end

