-- ==== Sys2Proof/Machine/Comparator.lean ====
section
/-!
DEFINITION. Sys2Proof/Machine/Comparator.lean: unit constant_time_comparator. The function `tseq` (R58), the comparator
with the operations it performs (R59), and the meaning of CMP (R60).
-/

namespace Sys2Proof.Machine

/-- The accumulator of `tseq`: the bitwise OR of the pairwise XORs (R58). -/
def tseqAcc : Byte → List Byte → List Byte → Byte
  | acc, x :: xs, y :: ys => tseqAcc (acc ||| (x ^^^ y)) xs ys
  | acc, _, _ => acc

/-- `tseq(a, b)`, a single bit (R58). -/
def tseq (a b : List Byte) : BitVec 1 :=
  if a.length ≠ b.length then 0
  else if tseqAcc 0 a b = 0 then 1 else 0

/-- The elementary operations of the comparator that R59 counts. -/
inductive CmpEvent where
  /-- A read of `IBUF_A[i]`. -/
  | readA (i : Nat)
  /-- A read of `IBUF_B[i]`. -/
  | readB (i : Nat)
  /-- One 8-bit XOR. -/
  | xorStep
  /-- One 8-bit OR into the accumulator. -/
  | orStep
  /-- The final test `acc = 0`. -/
  | testAcc
  deriving DecidableEq, Repr

/-- The loop of R58 over `k` pairs from index `i`, with the operations it performs, in order (R59). -/
def cmpLoop (a b : Memory) : (k i : Nat) → (acc : Byte) → Byte × List CmpEvent
  | 0, _, acc => (acc, [])
  | k + 1, i, acc =>
    let r := cmpLoop a b k (i + 1) (acc ||| (a.read i ^^^ b.read i))
    (r.1, CmpEvent.readA i :: .readB i :: .xorStep :: .orStep :: r.2)

/-- The comparator: its bit and the operations it performed. With unequal lengths it reads nothing (R59 item 1). -/
def cmpRun (s : State) : BitVec 1 × List CmpEvent :=
  if s.lenA ≠ s.lenB then (0, [])
  else
    let r := cmpLoop s.ibufA s.ibufB s.lenA.toNat 0 0
    (if r.1 = 0 then 1 else 0, r.2 ++ [CmpEvent.testAcc])

/-- What one CMP command does inside, operation by operation: nothing on a length error, else the comparator's
operations (R59, log entry 7). -/
def cmpEvents (s : State) : List CmpEvent :=
  if lenATooLong s || lenBTooLong s then [] else (cmpRun s).2

/-- CMP (R60). -/
def execCmp (s : State) : Host.Outcome State Fault Refusal :=
  if lenATooLong s then .next (raiseError .operandLength s)
  else if lenBTooLong s then .next (raiseError .operandLength s)
  else .next (completeWithScalar 0 ((cmpRun s).1.zeroExtend 32) s)

end Sys2Proof.Machine
end

