-- ==== Sys2Proof/Machine/Alphabet.lean ====
section
/-!
DEFINITION. Sys2Proof/Machine/Alphabet.lean: the base32 alphabet (R39) over 7-bit ASCII codes (R38).
-/

namespace Sys2Proof.Machine

/-- The character `=`, index 32 of the alphabet: padding only, never a data symbol (R38, R39). -/
def padChar : Byte := 0x3D

/-- `sym(v)`: the character of value `v` (R39, closed form). -/
def sym (v : SymbolValue) : Byte :=
  if v.toNat ≤ 25 then BitVec.ofNat 8 (0x41 + v.toNat)
  else BitVec.ofNat 8 (0x32 + (v.toNat - 26))

/-- `val(c)`: the value of character `c`, where it has one (R39, closed form). Every other byte, `=` among them, is
outside the 32-symbol alphabet (R38). -/
def val (c : Byte) : Option SymbolValue :=
  if 0x41 ≤ c.toNat ∧ c.toNat ≤ 0x5A then some (BitVec.ofNat 5 (c.toNat - 0x41))
  else if 0x32 ≤ c.toNat ∧ c.toNat ≤ 0x37 then some (BitVec.ofNat 5 (c.toNat - 0x32 + 26))
  else none

end Sys2Proof.Machine
end

