-- ==== Sys2Proof/Machine/Decoder.lean ====
section
/-!
DEFINITION. Sys2Proof/Machine/Decoder.lean: unit base32_decoder. The function `b32dec` (R46 to R50), its form by groups
of eight symbols (R51), and the meaning of DEC (R53).
-/

namespace Sys2Proof.Machine

/-- The two kinds of malformed base32 input (R46, R47, R48). -/
inductive DecodeError where
  | invalidPadding
  | invalidAlphabet
  deriving DecidableEq, Repr

/-- The code a decode error is reported by (R53, R62). -/
def DecodeError.toErrorCode : DecodeError → ErrorCode
  | .invalidPadding  => .invalidPadding
  | .invalidAlphabet => .invalidAlphabet

/-- `t`: the length of the run of `=` at the end of the text (R46). -/
def padRun (s : List Byte) : Nat := (s.reverse.takeWhile (fun c => c == padChar)).length

/-- The permitted run lengths (R46). -/
def padRunAllowed (t : Nat) : Bool := [0, 1, 3, 4, 6].contains t

/-- The body: the text without its padding run (R47). -/
def body (s : List Byte) : List Byte := s.take (s.length - padRun s)

/-- The values of a string of data symbols; nothing if any byte is outside the alphabet (R47). -/
def symbolValues : List Byte → Option (List SymbolValue)
  | [] => some []
  | c :: cs =>
    match val c, symbolValues cs with
    | some v, some vs => some (v :: vs)
    | _, _ => none

/-- `V`: the bits of the symbol values, first symbol first (R48). -/
def decoderBits (vs : List SymbolValue) : List Bool := vs.flatMap bitString

/-- `q = floor(5k / 8)`: the bytes that `k` symbols give (R48). -/
def byteCount (k : Nat) : Nat := 5 * k / 8

/-- `V[8q .. 5k)`: the trailing bits (R48). -/
def trailingBits (vs : List SymbolValue) : List Bool := (decoderBits vs).drop (8 * byteCount vs.length)

/-- `d[i] = num(V[8i .. 8i+8))` (R48). -/
def decodedByte (vs : List SymbolValue) (i : Nat) : Byte :=
  BitVec.ofNat 8 (num (slice (decoderBits vs) (8 * i) 8))

/-- Step 3, bits to bytes (R48): a trailing bit that is 1 is `InvalidPadding`; zero trailing bits are dropped. -/
def bitsToBytes (vs : List SymbolValue) : Except DecodeError (List Byte) :=
  if num (trailingBits vs) ≠ 0 then .error .invalidPadding
  else .ok ((List.range (byteCount vs.length)).map (decodedByte vs))

/-- `b32dec(s)` (R50): the checks in the order of the source's steps. The empty text needs no case (R49), and nothing
else is checked (R52). -/
def b32dec (s : List Byte) : Except DecodeError (List Byte) :=
  if padRunAllowed (padRun s) then
    match symbolValues (body s) with
    | none    => .error .invalidAlphabet
    | some vs => bitsToBytes vs
  else .error .invalidPadding

/-- The five bytes `b0 .. b4` of a group of eight symbol values, by the shifts and masks of R51. -/
def groupBytes (s0 s1 s2 s3 s4 s5 s6 s7 : SymbolValue) : List Byte :=
  [ (s0.zeroExtend 8 <<< 3) ||| (s1.zeroExtend 8 >>> 2),
    ((s1.zeroExtend 8 &&& 0x03) <<< 6) ||| (s2.zeroExtend 8 <<< 1) ||| (s3.zeroExtend 8 >>> 4),
    ((s3.zeroExtend 8 &&& 0x0F) <<< 4) ||| (s4.zeroExtend 8 >>> 1),
    ((s4.zeroExtend 8 &&& 0x01) <<< 7) ||| (s5.zeroExtend 8 <<< 2) ||| (s6.zeroExtend 8 >>> 3),
    ((s6.zeroExtend 8 &&& 0x07) <<< 5) ||| s7.zeroExtend 8 ]

/-- A last, partial group: its first `n` bytes if its trailing bits are zero. -/
def lastBytes (n : Nat) (zeroTail : Bool) (bs : List Byte) : Except DecodeError (List Byte) :=
  if zeroTail then .ok (bs.take n) else .error .invalidPadding

/-- Step 3 by groups of eight symbols, with the table of R51 for the last group. Not used by the step: R51 states it
as an equivalent form of R48. -/
def bitsToBytesGroups : List SymbolValue → Except DecodeError (List Byte)
  | [] => .ok []
  | [s0] => lastBytes 0 (s0 == 0) (groupBytes s0 0 0 0 0 0 0 0)
  | [s0, s1] => lastBytes 1 (s1 &&& 0x03 == 0) (groupBytes s0 s1 0 0 0 0 0 0)
  | [s0, s1, s2] => lastBytes 1 (s1 &&& 0x03 == 0 && s2 == 0) (groupBytes s0 s1 s2 0 0 0 0 0)
  | [s0, s1, s2, s3] => lastBytes 2 (s3 &&& 0x0F == 0) (groupBytes s0 s1 s2 s3 0 0 0 0)
  | [s0, s1, s2, s3, s4] => lastBytes 3 (s4 &&& 0x01 == 0) (groupBytes s0 s1 s2 s3 s4 0 0 0)
  | [s0, s1, s2, s3, s4, s5] =>
    lastBytes 3 (s4 &&& 0x01 == 0 && s5 == 0) (groupBytes s0 s1 s2 s3 s4 s5 0 0)
  | [s0, s1, s2, s3, s4, s5, s6] => lastBytes 4 (s6 &&& 0x07 == 0) (groupBytes s0 s1 s2 s3 s4 s5 s6 0)
  | s0 :: s1 :: s2 :: s3 :: s4 :: s5 :: s6 :: s7 :: rest =>
    match bitsToBytesGroups rest with
    | .ok ds   => .ok (groupBytes s0 s1 s2 s3 s4 s5 s6 s7 ++ ds)
    | .error e => .error e

/-- DEC (R53). -/
def execDec (s : State) : Host.Outcome State Fault Refusal :=
  if lenATooLong s then .next (raiseError .operandLength s)
  else
    match b32dec (operandA s) with
    | .ok d    => .next (completeWithString d s)
    | .error e => .next (raiseError e.toErrorCode s)

end Sys2Proof.Machine
end

