-- ==== Sys2Proof/Machine/Encoder.lean ====
section
/-!
DEFINITION. Sys2Proof/Machine/Encoder.lean: unit base32_encoder. The function `b32enc` (R42), its form by groups of
five bytes (R44), and the meaning of ENC (R45).
-/

namespace Sys2Proof.Machine

/-- `z`: zero bits that bring `8n` bits to a multiple of 5 (R42). -/
def zeroFill (n : Nat) : Nat := (5 - (8 * n) % 5) % 5

/-- `m = ceil(8n / 5)`: data symbols of an `n`-byte input (R42, R43). -/
def symbolCount (n : Nat) : Nat := (8 * n + 4) / 5

/-- `p`: the `=` characters that bring `m` symbols to a multiple of 8 (R42). -/
def padCount (m : Nat) : Nat := (8 - m % 8) % 8

/-- `B'`: the bits of the bytes, most significant bit of the first byte first, then the zero fill (R42). -/
def encoderBits (a : List Byte) : List Bool :=
  a.flatMap bitString ++ List.replicate (zeroFill a.length) false

/-- `c[j] = sym(num(B'[5j .. 5j+5)))` (R42). -/
def encodedSymbol (a : List Byte) (j : Nat) : Byte :=
  sym (BitVec.ofNat 5 (num (slice (encoderBits a) (5 * j) 5)))

/-- `b32enc(a)` (R42). -/
def b32enc (a : List Byte) : List Byte :=
  (List.range (symbolCount a.length)).map (encodedSymbol a) ++
    List.replicate (padCount (symbolCount a.length)) padChar

/-- The eight symbol values `s0 .. s7` of a group of five bytes, by the shifts and masks of R44. -/
def groupValues (b0 b1 b2 b3 b4 : Byte) : List SymbolValue :=
  [ (b0 >>> 3).truncate 5,
    (((b0 &&& 0x07) <<< 2) ||| (b1 >>> 6)).truncate 5,
    ((b1 >>> 1) &&& 0x1F).truncate 5,
    (((b1 &&& 0x01) <<< 4) ||| (b2 >>> 4)).truncate 5,
    (((b2 &&& 0x0F) <<< 1) ||| (b3 >>> 7)).truncate 5,
    ((b3 >>> 2) &&& 0x1F).truncate 5,
    (((b3 &&& 0x03) <<< 3) ||| (b4 >>> 5)).truncate 5,
    (b4 &&& 0x1F).truncate 5 ]

/-- A last group of `k` bytes, completed with zero bytes: its first `d` symbols, then `8 - d` padding characters. -/
def lastGroup (d : Nat) (vs : List SymbolValue) : List Byte :=
  (vs.take d).map sym ++ List.replicate (8 - d) padChar

/-- The encoder by groups of five bytes (R44), with `d(1) = 2`, `d(2) = 4`, `d(3) = 5`, `d(4) = 7`. Not used by the
step: R44 states it as an equivalent form of `b32enc`. -/
def b32encGroups : List Byte → List Byte
  | [] => []
  | [b0] => lastGroup 2 (groupValues b0 0 0 0 0)
  | [b0, b1] => lastGroup 4 (groupValues b0 b1 0 0 0)
  | [b0, b1, b2] => lastGroup 5 (groupValues b0 b1 b2 0 0)
  | [b0, b1, b2, b3] => lastGroup 7 (groupValues b0 b1 b2 b3 0)
  | b0 :: b1 :: b2 :: b3 :: b4 :: rest => (groupValues b0 b1 b2 b3 b4).map sym ++ b32encGroups rest

/-- ENC (R45). -/
def execEnc (s : State) : Host.Outcome State Fault Refusal :=
  if lenATooLong s then .next (raiseError .operandLength s)
  else .next (completeWithString (b32enc (operandA s)) s)

end Sys2Proof.Machine
end

