-- ==== Sys2Proof/Machine/Truncation.lean ====
section
/-!
DEFINITION. Sys2Proof/Machine/Truncation.lean: unit hotp_truncation. The function `dt` (R55) and the meaning of TRUNC
(R56).
-/

namespace Sys2Proof.Machine

/-- The digest length TRUNC takes (R56). -/
def digestLength : Nat := 20

/-- `o = d[19] & 0x0F` (R55). -/
def dtOffset (d : List Byte) : BitVec 4 := (byteAt d 19 &&& 0x0F).truncate 4

/-- `W`: the four bytes from `o`, the first the most significant (R55, R27). -/
def dtWindow (d : List Byte) : Word :=
  let o := (dtOffset d).toNat
  ((byteAt d o).zeroExtend 32 <<< 24) ||| ((byteAt d (o + 1)).zeroExtend 32 <<< 16) |||
    ((byteAt d (o + 2)).zeroExtend 32 <<< 8) ||| (byteAt d (o + 3)).zeroExtend 32

/-- `P = W & 0x7FFFFFFF` (R55). -/
def dtValue (d : List Byte) : Word := dtWindow d &&& 0x7FFFFFFF

/-- `dt(d)`, the pair `(o, P)`, for a byte string of length 20 (R55). -/
def dt (d : List Byte) : BitVec 4 × Word := (dtOffset d, dtValue d)

/-- TRUNC (R56). -/
def execTrunc (s : State) : Host.Outcome State Fault Refusal :=
  if s.lenA.toNat ≠ digestLength then .next (raiseError .operandLength s)
  else
    let r := dt (digestOperand s)
    .next (completeWithScalar r.1 r.2 s)

end Sys2Proof.Machine
end

