-- ==== Sys2Proof/Machine/Dispatch.lean ====
section
/-! DEFINITION. Sys2Proof/Machine/Dispatch.lean: one arm per operation of the opcode map (R35, R41). -/

namespace Sys2Proof.Machine

def exec (i : Instr) (s : State) : Host.Outcome State Fault Refusal :=
  match i with
  | .enc => Sys2Proof.Machine.execEnc s
  | .dec => Sys2Proof.Machine.execDec s
  | .trunc => Sys2Proof.Machine.execTrunc s
  | .cmp => Sys2Proof.Machine.execCmp s

end Sys2Proof.Machine
end

