-- ==== Sys2Proof/Machine/Flags.lean ====
section
/-!
DEFINITION. Sys2Proof/Machine/Flags.lean: the numeric error codes (R62), the STATUS word (R8) and what each register
reads as (R24).
-/

namespace Sys2Proof.Machine

/-- The 4-bit code of an error (R62). -/
def ErrorCode.code : ErrorCode → BitVec 4
  | .noError         => 0
  | .invalidPadding  => 1
  | .invalidAlphabet => 2
  | .operandLength   => 3
  | .illegalCommand  => 4

/-- `STATUS` as read: `zext_32(ERR) << 4 | zext_32(DONE)` (R8), so the reserved bits read 0. -/
def statusWord (s : State) : Word :=
  (s.err.code.zeroExtend 32 <<< 4) ||| (BitVec.ofBool s.done).zeroExtend 32

/-- What each register reads as (R24). `CMD` is write-only and reads 0; `OFF` reads `zext_32(OFFSET)`. -/
def readReg (s : State) : RegName → Word
  | .cmd    => 0
  | .status => statusWord s
  | .lenA   => s.lenA
  | .lenB   => s.lenB
  | .olen   => s.olen
  | .res    => s.res
  | .off    => s.off.zeroExtend 32

end Sys2Proof.Machine
end

