-- ==== Sys2Proof/Machine/HostPort.lean ====
section
/-!
DEFINITION. Sys2Proof/Machine/HostPort.lean: what each host action does to the block (R22 to R26, R41, R70).
-/

namespace Sys2Proof.Machine

/-- `exec(w)` of R41: a legal word runs its operation; every other word completes with `IllegalCommand` (R36). Nothing
of `w` is stored (R7). -/
def runCommand (w : Word) (s : State) : Host.Outcome State Fault Refusal :=
  match decode w with
  | .ok i    => exec i s
  | .error _ => .next (raiseError .illegalCommand s)

/-- A register access outside the seven offsets has no meaning (R26). -/
def refuseRegister (off : Nat) : Refusal :=
  if off % 4 = 0 then .unmappedRegister else .misalignedRegister

/-- `RegRead(off)` (R22, R24): answers the register and changes nothing of the block. -/
def regReadAction (off : Nat) (s : State) : Host.Outcome State Fault Refusal :=
  match regAt off with
  | some r => .next { s with answer := some (.word (readReg s r)) }
  | none   => .refused (refuseRegister off)

/-- `RegWrite(off, v)` (R25): `CMD` runs a command, the two lengths store, the read-only registers ignore it. -/
def regWriteAction (off : Nat) (v : Word) (s : State) : Host.Outcome State Fault Refusal :=
  match regAt off with
  | some .cmd    => runCommand v s
  | some .lenA   => .next { s with lenA := v }
  | some .lenB   => .next { s with lenB := v }
  | some .status => .next s
  | some .olen   => .next s
  | some .res    => .next s
  | some .off    => .next s
  | none         => .refused (refuseRegister off)

/-- `BufRead(region, i)` (R23, R24). -/
def bufReadAction (b : Buffer) (i : Nat) (s : State) : Host.Outcome State Fault Refusal :=
  if i < bufferSize s.config b then .next { s with answer := some (.byte ((readBuffer s b).read i)) }
  else .refused .bufferIndex

/-- `BufWrite(region, i, b)` (R23, R25). -/
def bufWriteAction (b : Buffer) (i : Nat) (v : Byte) (s : State) : Host.Outcome State Fault Refusal :=
  if i < bufferSize s.config b then .next (writeBuffer s b i v) else .refused .bufferIndex

/-- `Reset` (R70): every stored bit of the block takes its value of R20, whatever the state was. The instance's
parameter and the host's later actions are not the block's state and stay. -/
def resetAction (s : State) : Host.Outcome State Fault Refusal :=
  .next { State.reset with config := s.config, pending := s.pending }

/-- An access of a width the region does not have has no meaning (R26). -/
def otherWidthAction : Host.Outcome State Fault Refusal := .refused .accessWidth

/-- One host action, from a state in which it no longer waits and nothing is answered yet. -/
def performAction (a : HostAction) (s : State) : Host.Outcome State Fault Refusal :=
  match a with
  | .regRead off      => regReadAction off s
  | .regWrite off v   => regWriteAction off v s
  | .bufRead b i      => bufReadAction b i s
  | .bufWrite b i v   => bufWriteAction b i v s
  | .reset            => resetAction s
  | .otherWidth _ _ _ => otherWidthAction

/-- One step of the block: the host's next action takes effect, whole, before any later one (R29); with no host
action nothing changes (R66). -/
def nextAction (s : State) : Host.Outcome State Fault Refusal :=
  match s.pending with
  | []        => .next s
  | a :: rest => performAction a { s with pending := rest, answer := none }

end Sys2Proof.Machine
end

