-- ==== Sys2Proof/Machine/Step.lean ====
section
/-!
DEFINITION. Sys2Proof/Machine/Step.lean: one step of the machine is one host action (R29); a command is one
`RegWrite` at offset 0x00 (R7, R17).
-/

namespace Sys2Proof.Machine

/-- One step: the host's next action takes effect (R29); with none waiting nothing changes (R66). -/
def step (s : State) : Host.Outcome State Fault Refusal := nextAction s

/-- The block fetches nothing (R17): a command is the data of the host's next `RegWrite(0x00, w)`. This puts that write
ahead of the host's other waiting actions, so the very next step runs it (log entry 13). -/
def State.withFetchWord (s : State) (nbits w : Nat) : State :=
  s.issue (.regWrite 0x00 (BitVec.ofNat 32 (w % 2 ^ nbits)))

end Sys2Proof.Machine
end

