-- ==== Sys2Proof/WellFormed.lean ====
section
/-!
DEFINITION. Sys2Proof/WellFormed.lean: what makes a parameter, an instruction, a command word and a host action
well formed. Each check is a Bool, so that it can be decided.
-/

namespace Sys2Proof

/-- The bounds of R5: `20 <= MAXLEN <= 2^31`. -/
def Config.wf (c : Config) : Bool := decide (20 ≤ c.maxLen) && decide (c.maxLen ≤ 2 ^ 31)

/-- An instruction has no operand field that could be out of range (R37): each of the four is well formed. -/
def Instr.wf : Instr → Bool
  | .enc   => true
  | .dec   => true
  | .trunc => true
  | .cmp   => true

/-- A legal command word: `RSV = 0` and `OP` one of 1, 2, 3, 4 (R36). -/
def commandWordWf (w : Word) : Bool :=
  rsvField w == 0 && (opField w == 1 || opField w == 2 || opField w == 3 || opField w == 4)

/-- The access rules R22 and R23: a register access names one of the seven word-aligned offsets, a buffer access an
index below the region's size, and each has its region's width. -/
def Machine.HostAction.wf (c : Config) : Machine.HostAction → Bool
  | .regRead off        => [0x00, 0x04, 0x08, 0x0C, 0x10, 0x14, 0x18].contains off
  | .regWrite off _     => [0x00, 0x04, 0x08, 0x0C, 0x10, 0x14, 0x18].contains off
  | .bufRead b i        => decide (i < Machine.bufferSize c b)
  | .bufWrite b i _     => decide (i < Machine.bufferSize c b)
  | .reset              => true
  | .otherWidth _ _ _   => false

end Sys2Proof
end

