-- ==== Sys2Proof/Safety.lean ====
section
/-!
DEFINITION. Sys2Proof/Safety.lean: the terms claims use: what a legal state of the block is, what a command reads and
leaves, and what a host that keeps the access rules is.
-/

namespace Sys2Proof.Machine

/-- Every output is as cleared by the first lines of R41: "no result" (R3, R64). -/
abbrev State.outputsCleared (s : State) : Prop :=
  s.olen = 0 ∧ s.res = 0 ∧ s.off = 0 ∧ s.obuf = Memory.cleared

/-- The legal states of the block. Every step keeps it, and `State.reset` has it. -/
structure State.Inv (s : State) : Prop where
  /-- R5: `20 <= MAXLEN <= 2^31`. -/
  config_wf : s.config.wf = true
  /-- The canonical form of `IBUF_A`. -/
  ibufA_wf : s.ibufA.wf
  /-- R14: the indices of `IBUF_A` are `0 .. MAXLEN-1`. -/
  ibufA_below : s.ibufA.below s.config.maxLen
  /-- The canonical form of `IBUF_B`. -/
  ibufB_wf : s.ibufB.wf
  /-- R15: the indices of `IBUF_B` are `0 .. MAXLEN-1`. -/
  ibufB_below : s.ibufB.below s.config.maxLen
  /-- The canonical form of `OBUF`. -/
  obuf_wf : s.obuf.wf
  /-- R16: `OBUF[i] = 0` for every `i >= OLEN`. -/
  obuf_below : s.obuf.below s.olen.toNat
  /-- R11: `OLEN <= OCAP`. -/
  olen_le : s.olen.toNat ≤ ocap s.config
  /-- R12: bit 31 of `RES` reads 0 after every command. -/
  res_le : s.res.toNat ≤ 0x7FFFFFFF
  /-- R72 (5): before the first command all results are the reset zeros. -/
  fresh : s.done = false → s.err = .noError ∧ s.outputsCleared
  /-- R64: a failed command leaves no result. -/
  failed : s.err ≠ .noError → s.outputsCleared

/-- Two states show the same results to the host (R2): `STATUS`, `OLEN`, `RES`, `OFF` and all of `OBUF`. -/
abbrev State.sameResults (s t : State) : Prop :=
  s.done = t.done ∧ s.err = t.err ∧ s.olen = t.olen ∧ s.res = t.res ∧ s.off = t.off ∧ s.obuf = t.obuf

/-- Two buffers agree on the indices below `n`. -/
abbrev Memory.agreeBelow (n : Nat) (m m' : Memory) : Prop := ∀ i, i < n → m.read i = m'.read i

/-- Two states give a command the same operands: what R19 lists as read by it, no more. -/
def sameOperands : Instr → State → State → Prop
  | .enc, s, t => s.lenA = t.lenA ∧
      (s.lenA.toNat ≤ s.config.maxLen → s.ibufA.agreeBelow s.lenA.toNat t.ibufA)
  | .dec, s, t => s.lenA = t.lenA ∧
      (s.lenA.toNat ≤ s.config.maxLen → s.ibufA.agreeBelow s.lenA.toNat t.ibufA)
  | .trunc, s, t => s.lenA = t.lenA ∧ (s.lenA.toNat = 20 → s.ibufA.agreeBelow 20 t.ibufA)
  | .cmp, s, t => s.lenA = t.lenA ∧ s.lenB = t.lenB ∧
      (s.lenA = s.lenB → s.lenA.toNat ≤ s.config.maxLen →
        s.ibufA.agreeBelow s.lenA.toNat t.ibufA ∧ s.ibufB.agreeBelow s.lenB.toNat t.ibufB)

/-- Everything the host loads, and the model's own fields, are as they were: what no command writes (R19). -/
abbrev State.sameInputs (s t : State) : Prop :=
  t.lenA = s.lenA ∧ t.lenB = s.lenB ∧ (∀ i, t.ibufA.read i = s.ibufA.read i) ∧
    (∀ i, t.ibufB.read i = s.ibufB.read i) ∧ t.config = s.config ∧ t.pending = s.pending ∧ t.answer = s.answer

/-- The operand-length error of a command (R62): `LEN_A > MAXLEN`, for CMP also `LEN_B > MAXLEN`; for TRUNC
`LEN_A != 20`. -/
def lengthError : Instr → State → Prop
  | .enc, s   => s.config.maxLen < s.lenA.toNat
  | .dec, s   => s.config.maxLen < s.lenA.toNat
  | .trunc, s => s.lenA.toNat ≠ 20
  | .cmp, s   => s.config.maxLen < s.lenA.toNat ∨ s.config.maxLen < s.lenB.toNat

/-- The trailing bits `V[8q .. 5k)` of a text are not all zero (R48), its body being data symbols. -/
def trailingBitSet (text : List Byte) : Prop :=
  ∃ vs : List SymbolValue, (body text).map val = vs.map some ∧
    true ∈ (vs.flatMap bitString).drop (8 * (5 * vs.length / 8))

/-- The command ended with no result, code `c` (R64). -/
abbrev failsWith (c : ErrorCode) (s : State) : Host.Outcome State Fault Refusal :=
  .next { s with done := true, err := c, olen := 0, res := 0, off := 0, obuf := [] }

/-- A host that keeps the access rules R22 and R23 in every action that waits. -/
abbrev State.hostKeepsRules (s : State) : Prop := ∀ a ∈ s.pending, a.wf s.config = true

/-- Whether an action can change the results of the last command: a command or a reset, and nothing else (R28, R72). -/
def HostAction.endsResults : HostAction → Bool
  | .regWrite off _ => off == 0x00
  | .reset => true
  | _ => false

/-- A run from a state that stops nowhere: after every number of steps there is a next state. -/
abbrev State.neverStops (s : State) : Prop :=
  ∀ n, ∃ t, Host.Core.run Sys2Proof.core n s = Host.Outcome.next t

/-- What the host does between ENC and DEC to run the round trip on one block (`MOVOA` of R40, R54): copy
`OBUF[0 .. OLEN-1]` to `IBUF_A` and set `LEN_A` to `OLEN`. -/
def State.copyOutputToA (s : State) : State :=
  { s with ibufA := s.ibufA.writeBytes 0 (s.obuf.readBytes 0 s.olen.toNat), lenA := s.olen }

end Sys2Proof.Machine
end

