-- ==== Sys2Proof/Certificates/Slice0/Obligations.lean ====
section
/-!
DEFINITION. Sys2Proof/Certificates/Slice0/Obligations.lean: what is claimed of the block, rule by rule of spec/.
A command is issued as the host issues it, `s.issue (.regWrite 0x00 w)`, or stands as `exec i s`;
`Obligations.StepRunsTheDecodedCommand` joins the two.
-/

open Sys2Proof Sys2Proof.Machine

/-! ## Command words -/

/-- R35: the opcode map, each row matched by `w & 0xFFFFFFFF = match`. -/
def Obligations.CommandWordsOfTheOpcodeMap : Prop :=
  (∀ w : Word, decode w = .ok .enc ↔ w &&& 0xFFFFFFFF = 0x00000001) ∧
  (∀ w : Word, decode w = .ok .dec ↔ w &&& 0xFFFFFFFF = 0x00000002) ∧
  (∀ w : Word, decode w = .ok .trunc ↔ w &&& 0xFFFFFFFF = 0x00000003) ∧
  (∀ w : Word, decode w = .ok .cmp ↔ w &&& 0xFFFFFFFF = 0x00000004)

/-- Decode and encode agree in both directions, on every well-formed instruction and every word (R34, R35, R37). -/
def Obligations.DecodeAndEncodeAgree : Prop :=
  (∀ i : Instr, i.wf = true → decode (encode i) = .ok i ∧ decodeTableWord 32 (encode i).toNat = some i) ∧
  (∀ (w : Word) (i : Instr), decode w = .ok i → encode i = w) ∧
  (∀ w : Word, commandWordWf w = true ↔ ∃ i, decode w = .ok i)

/-- R36: every word other than 1, 2, 3, 4 is illegal, those with a reserved bit set among them; it completes with
`ERR = 4`, `DONE = 1` and all outputs cleared, and changes nothing else. -/
def Obligations.IllegalWordsCompleteWithCodeFour : Prop :=
  (∀ w : Word, w ≠ 1 → w ≠ 2 → w ≠ 3 → w ≠ 4 → ∀ s : State,
    step (s.issue (.regWrite 0x00 w)) = failsWith .illegalCommand { s with answer := none }) ∧
  (∀ w : Word, rsvField w ≠ 0 → w ≠ 1 ∧ w ≠ 2 ∧ w ≠ 3 ∧ w ≠ 4) ∧
  ErrorCode.illegalCommand.code = 4

/-! ## The step -/

/-- A step whose action is a `RegWrite` of a command word at offset 0x00 is `exec` of the decoded command, on the state
in which the action no longer waits and nothing is answered (R7, R29; log entries 2, 3). -/
def Obligations.StepRunsTheDecodedCommand : Prop :=
  (∀ (s : State) (w : Word) (i : Instr) (rest : List HostAction),
    s.pending = .regWrite 0x00 w :: rest → decode w = .ok i →
      step s = exec i { s with pending := rest, answer := none }) ∧
  (∀ (s : State) (i : Instr),
    step (s.withFetchWord 32 (encode i).toNat) = exec i { s with answer := none })

/-- With no host action the state never changes (R66; log entry 4). -/
def Obligations.NothingHappensWithoutAHostAction : Prop :=
  ∀ s : State, s.pending = [] → step s = .next s

/-- R4: every command completes, whatever the state and the word: an operation of the map, an operand outside its
domain or an illegal word. -/
def Obligations.EveryCommandCompletes : Prop :=
  ∀ (s : State) (w : Word), ∃ t, step (s.issue (.regWrite 0x00 w)) = .next t ∧ t.done = true ∧
    ((∀ i, decode w ≠ .ok i) → t.err = .illegalCommand) ∧
    (∀ i, decode w = .ok i → lengthError i s → t.err = .operandLength)

/-! ## Reset -/

/-- R20: after reset every stored bit is 0. -/
def Obligations.ResetValuesAreZero : Prop :=
  State.reset.done = false ∧ State.reset.err.code = 0 ∧ State.reset.lenA = 0x00000000 ∧
  State.reset.lenB = 0x00000000 ∧ State.reset.olen = 0x00000000 ∧ State.reset.res = 0x00000000 ∧
  State.reset.off = 0 ∧
  (∀ i, i < State.reset.config.maxLen → State.reset.ibufA.read i = 0x00 ∧ State.reset.ibufB.read i = 0x00) ∧
  (∀ i, i < ocap State.reset.config → State.reset.obuf.read i = 0x00)

/-- R70: the `Reset` action sets every stored bit to its value of R20, whatever the state was. -/
def Obligations.ResetClearsEveryStoredBit : Prop :=
  ∀ s : State, ∃ t, step (s.issue .reset) = .next t ∧ statusWord t = 0x00000000 ∧ t.done = false ∧
    t.err = .noError ∧ t.lenA = 0 ∧ t.lenB = 0 ∧ t.olen = 0 ∧ t.res = 0 ∧ t.off = 0 ∧
    (∀ i, t.ibufA.read i = 0 ∧ t.ibufB.read i = 0 ∧ t.obuf.read i = 0)

/-- R71: each command as the first one after reset, on an instance of any legal capacity. -/
def Obligations.FirstCommandAfterReset : Prop :=
  ∀ (s : State) (c : Config), c.wf = true → s = { State.reset with config := c } →
    (∃ t, exec .enc s = .next t ∧ statusWord t = 0x01 ∧ t.olen = 0) ∧
    (∃ t, exec .dec s = .next t ∧ statusWord t = 0x01 ∧ t.olen = 0) ∧
    (∃ t, exec .cmp s = .next t ∧ statusWord t = 0x01 ∧ t.res = 1) ∧
    (∃ t, exec .trunc s = .next t ∧ statusWord t = 0x31 ∧ t.res = 0 ∧ t.off = 0)

/-! ## The four operations -/

/-- R45: ENC. -/
def Obligations.EncWritesTheBase32Text : Prop :=
  decode 0x00000001 = .ok .enc ∧
  (∀ s : State, s.config.wf = true → s.lenA.toNat ≤ s.config.maxLen →
    ∃ t, exec .enc s = .next t ∧ t.done = true ∧ t.err = .noError ∧
      t.olen.toNat = 8 * ((s.lenA.toNat + 4) / 5) ∧
      t.obuf.readBytes 0 t.olen.toNat = b32enc (s.ibufA.readBytes 0 s.lenA.toNat) ∧
      (∀ i, t.olen.toNat ≤ i → t.obuf.read i = 0) ∧ t.res = 0 ∧ t.off = 0 ∧ s.sameInputs t ∧
      (s.lenA.toNat = s.config.maxLen → t.olen.toNat = ocap s.config) ∧
      (∀ i, i < t.olen.toNat → (val (t.obuf.read i)).isSome = true ∨ t.obuf.read i = 0x3D)) ∧
  (∀ s : State, s.config.maxLen < s.lenA.toNat → exec .enc s = failsWith .operandLength s) ∧
  b32enc [0x66, 0x6F] = [0x4D, 0x5A, 0x58, 0x51, 0x3D, 0x3D, 0x3D, 0x3D]

/-- R53: DEC. -/
def Obligations.DecWritesTheBytesOrAnError : Prop :=
  decode 0x00000002 = .ok .dec ∧
  (∀ (s : State) (d : List Byte), s.config.wf = true → s.lenA.toNat ≤ s.config.maxLen →
    b32dec (s.ibufA.readBytes 0 s.lenA.toNat) = .ok d →
    ∃ t, exec .dec s = .next t ∧ t.done = true ∧ t.err = .noError ∧ t.olen.toNat = d.length ∧
      d.length = 5 * (s.lenA.toNat - padRun (s.ibufA.readBytes 0 s.lenA.toNat)) / 8 ∧
      t.olen.toNat ≤ 5 * s.config.maxLen / 8 ∧ t.olen.toNat < ocap s.config ∧
      t.obuf.readBytes 0 t.olen.toNat = d ∧ (∀ i, t.olen.toNat ≤ i → t.obuf.read i = 0) ∧
      t.res = 0 ∧ t.off = 0 ∧ s.sameInputs t) ∧
  (∀ s : State, s.lenA.toNat ≤ s.config.maxLen →
    b32dec (s.ibufA.readBytes 0 s.lenA.toNat) = .error .invalidPadding →
    exec .dec s = failsWith .invalidPadding s) ∧
  (∀ s : State, s.lenA.toNat ≤ s.config.maxLen →
    b32dec (s.ibufA.readBytes 0 s.lenA.toNat) = .error .invalidAlphabet →
    exec .dec s = failsWith .invalidAlphabet s) ∧
  (∀ s : State, s.config.maxLen < s.lenA.toNat → exec .dec s = failsWith .operandLength s) ∧
  b32dec [0x4D, 0x5A, 0x58, 0x51, 0x3D, 0x3D, 0x3D, 0x3D] = .ok [0x66, 0x6F] ∧
  b32dec [0x4D, 0x5A, 0x58, 0x52, 0x3D, 0x3D, 0x3D, 0x3D] = .error .invalidPadding

/-- R56: TRUNC. Bit 31 of `RES` is 0 after every command. -/
def Obligations.TruncWritesOffsetAndValue : Prop :=
  decode 0x00000003 = .ok .trunc ∧
  (∀ s : State, s.lenA.toNat = 20 →
    exec .trunc s = .next { s with
      done := true, err := .noError, olen := 0, obuf := [],
      off := (dt (s.ibufA.readBytes 0 20)).1, res := (dt (s.ibufA.readBytes 0 20)).2 }) ∧
  (∀ s : State, s.lenA.toNat ≠ 20 → exec .trunc s = failsWith .operandLength s) ∧
  dt [0x1F, 0x86, 0x98, 0x69, 0x0E, 0x02, 0xCA, 0x16, 0x61, 0x85, 0x50, 0xEF, 0x7F, 0x19, 0xDA, 0x8E, 0x94, 0x5B,
    0x55, 0x5A] = (10, 0x50EF7F19) ∧
  dt (List.replicate 20 0x00) = (0, 0x00000000) ∧ dt (List.replicate 20 0xFF) = (15, 0x7FFFFFFF) ∧
  (∀ (i : Instr) (s : State), ∃ t, exec i s = .next t ∧ t.res.getLsbD 31 = false)

/-- R60: CMP. The bit is 1 exactly when the two operands are the same byte string, lengths included. -/
def Obligations.CmpWritesEquality : Prop :=
  decode 0x00000004 = .ok .cmp ∧
  (∀ s : State, s.lenA.toNat ≤ s.config.maxLen → s.lenB.toNat ≤ s.config.maxLen →
    ∃ t, exec .cmp s = .next t ∧
      t = { s with done := true, err := .noError, olen := 0, obuf := [], off := 0, res := t.res } ∧
      t.res = (tseq (s.ibufA.readBytes 0 s.lenA.toNat) (s.ibufB.readBytes 0 s.lenB.toNat)).zeroExtend 32 ∧
      (s.lenA = s.lenB → (∀ i, i < s.lenA.toNat → s.ibufA.read i = s.ibufB.read i) → t.res = 0x00000001) ∧
      (s.lenA ≠ s.lenB → t.res = 0x00000000) ∧
      (∀ i, s.lenA = s.lenB → i < s.lenA.toNat → s.ibufA.read i ≠ s.ibufB.read i → t.res = 0x00000000)) ∧
  (∀ s : State, s.config.maxLen < s.lenA.toNat ∨ s.config.maxLen < s.lenB.toNat →
    exec .cmp s = failsWith .operandLength s) ∧
  tseq [0x31, 0x32, 0x33, 0x34, 0x35, 0x36] [0x31, 0x32, 0x33, 0x34, 0x35, 0x37] = 0 ∧
  tseq [0x31, 0x32, 0x33, 0x34, 0x35, 0x36] [0x31, 0x32, 0x33, 0x34, 0x35, 0x36] = 1

/-! ## What commands change, read and leave -/

/-- No command writes `LEN_A`, `LEN_B`, `IBUF_A` or `IBUF_B` (R19, R14, R15, R74), nor the model's own fields; an
illegal command neither. The outputs it may write are `DONE`, `ERR`, `OLEN`, `RES`, `OFF` and `OBUF`. -/
def Obligations.CommandsLeaveTheOperandsAlone : Prop :=
  (∀ (i : Instr) (s t : State), exec i s = .next t → s.sameInputs t ∧ t.ibufA = s.ibufA ∧ t.ibufB = s.ibufB) ∧
  (∀ (w : Word) (s t : State), step (s.issue (.regWrite 0x00 w)) = .next t →
    State.sameInputs { s with answer := none } t ∧ t.ibufA = s.ibufA ∧ t.ibufB = s.ibufB)

/-- No command reads `STATUS`, `OLEN`, `RES`, `OFF` or `OBUF` (R19): whatever they held, the result is the same. -/
def Obligations.CommandsReadNoResult : Prop :=
  ∀ (i : Instr) (s : State) (d : Bool) (e : ErrorCode) (n v : Word) (o : BitVec 4) (m : Memory),
    exec i { s with done := d, err := e, olen := n, res := v, off := o, obuf := m } = exec i s

/-- R2: a command's results are a function of its declared operands only: two states of one instance that agree on what
R19 lists as read by the command get the same results, and both complete. -/
def Obligations.ResultsDependOnTheOperandsOnly : Prop :=
  ∀ (i : Instr) (s s' : State), s.config = s'.config → sameOperands i s s' →
    ∃ t t', exec i s = .next t ∧ exec i s' = .next t' ∧ t.sameResults t'

/-- Which outputs each command can leave non-zero (R11, R12, R13, R16): a string only ENC and DEC, an offset only TRUNC,
a scalar only TRUNC and CMP, none after an error; bit 31 of `RES` is 0, and CMP's scalar is 0 or 1. -/
def Obligations.OutputsOfEachCommand : Prop :=
  ∀ (i : Instr) (s : State), ∃ t, exec i s = .next t ∧
    ((i = .enc ∨ i = .dec ∨ t.err ≠ .noError) → t.res = 0) ∧
    ((i ≠ .trunc ∨ t.err ≠ .noError) → t.off = 0) ∧
    ((i = .trunc ∨ i = .cmp ∨ t.err ≠ .noError) → t.olen = 0 ∧ ∀ k, t.obuf.read k = 0) ∧
    t.res.toNat ≤ 0x7FFFFFFF ∧ (i = .cmp → t.res = 0 ∨ t.res = 1)

/-! ## Errors -/

/-- R62, R63: the code a command completes with: the first cause that applies, in the order of R63. -/
def Obligations.ErrorCodesInPriorityOrder : Prop :=
  (ErrorCode.noError.code = 0 ∧ ErrorCode.invalidPadding.code = 1 ∧ ErrorCode.invalidAlphabet.code = 2 ∧
    ErrorCode.operandLength.code = 3 ∧ ErrorCode.illegalCommand.code = 4 ∧ ∀ e : ErrorCode, e.code.toNat ≤ 4) ∧
  ∀ (s : State) (w : Word), ∃ t, step (s.issue (.regWrite 0x00 w)) = .next t ∧
    ((∀ i, decode w ≠ .ok i) → t.err = .illegalCommand) ∧
    (∀ i, decode w = .ok i → lengthError i s → t.err = .operandLength) ∧
    (∀ i, decode w = .ok i → ¬ lengthError i s → i ≠ .dec → t.err = .noError) ∧
    (decode w = .ok .dec → ¬ lengthError .dec s →
      (padRun (operandA s) ∉ [0, 1, 3, 4, 6] → t.err = .invalidPadding) ∧
      (padRun (operandA s) ∈ [0, 1, 3, 4, 6] → (∃ c ∈ body (operandA s), val c = none) →
        t.err = .invalidAlphabet) ∧
      (padRun (operandA s) ∈ [0, 1, 3, 4, 6] → (∀ c ∈ body (operandA s), val c ≠ none) →
        (trailingBitSet (operandA s) → t.err = .invalidPadding) ∧
        (¬ trailingBitSet (operandA s) → t.err = .noError)))

/-- R64: what an error writes. -/
def Obligations.ErrorsLeaveNoResult : Prop :=
  ∀ (s : State) (w : Word) (t : State), step (s.issue (.regWrite 0x00 w)) = .next t → t.err ≠ .noError →
    t.done = true ∧ t.olen = 0 ∧ t.res = 0 ∧ t.off = 0 ∧ (∀ i, t.obuf.read i = 0) ∧
    t.lenA = s.lenA ∧ t.lenB = s.lenB ∧ t.ibufA = s.ibufA ∧ t.ibufB = s.ibufB

/-- R65: an error does not stick: after a command that failed, with whatever code, the next command does exactly what it
would have done had that command not been issued. -/
def Obligations.ErrorsDoNotStick : Prop :=
  ∀ (s t : State) (w w' : Word), step (s.issue (.regWrite 0x00 w)) = .next t → t.err ≠ .noError →
    step (t.issue (.regWrite 0x00 w')) = step (s.issue (.regWrite 0x00 w'))

/-! ## Registers and buffers as the host sees them -/

/-- R24: reads. Each answers its location and changes nothing of the block; `OBUF` reads 0 from `OLEN` on. -/
def Obligations.ReadsAnswerAndChangeNothing : Prop :=
  ∀ s : State,
    step (s.issue (.regRead 0x00)) = .next { s with answer := some (.word 0x00000000) } ∧
    step (s.issue (.regRead 0x04)) = .next { s with
      answer := some (.word (BitVec.ofNat 32 (s.err.code.toNat * 16 + s.done.toNat))) } ∧
    step (s.issue (.regRead 0x08)) = .next { s with answer := some (.word s.lenA) } ∧
    step (s.issue (.regRead 0x0C)) = .next { s with answer := some (.word s.lenB) } ∧
    step (s.issue (.regRead 0x10)) = .next { s with answer := some (.word s.olen) } ∧
    step (s.issue (.regRead 0x14)) = .next { s with answer := some (.word s.res) } ∧
    step (s.issue (.regRead 0x18)) = .next { s with answer := some (.word (BitVec.ofNat 32 s.off.toNat)) } ∧
    (∀ i, i < s.config.maxLen →
      step (s.issue (.bufRead .bufA i)) = .next { s with answer := some (.byte (s.ibufA.read i)) } ∧
      step (s.issue (.bufRead .bufB i)) = .next { s with answer := some (.byte (s.ibufB.read i)) }) ∧
    (∀ i, i < ocap s.config →
      step (s.issue (.bufRead .bufO i)) = .next { s with answer := some (.byte (s.obuf.read i)) }) ∧
    (s.Inv → ∀ i, s.olen.toNat ≤ i → s.obuf.read i = 0)

/-- R8: the fields and the readable values of `STATUS`, who writes it, and that a host write is ignored. -/
def Obligations.StatusWordValues : Prop :=
  (∀ s : State, s.Inv → statusWord s ∈ [0x00, 0x01, 0x11, 0x21, 0x31, (0x41 : Word)]) ∧
  (∀ s : State, (statusWord s).getLsbD 0 = s.done ∧ (statusWord s).extractLsb' 1 3 = 0 ∧
    (statusWord s).extractLsb' 4 4 = s.err.code ∧ (statusWord s).extractLsb' 8 24 = 0) ∧
  statusWord State.reset = 0x00 ∧
  (∀ (s t : State) (w : Word), step (s.issue (.regWrite 0x00 w)) = .next t → t.done = true) ∧
  (∀ (s t : State) (a : HostAction), (∀ w, a ≠ .regWrite 0x00 w) → a ≠ .reset → step (s.issue a) = .next t →
    statusWord t = statusWord s) ∧
  (∀ (s : State) (v : Word), step (s.issue (.regWrite 0x04 v)) = .next { s with answer := none }) ∧
  (∀ s : State, step (s.issue (.regRead 0x04)) = .next { s with answer := some (.word (statusWord s)) })

/-- R9: `LEN_A` stores any 32-bit value, reads it back, is written only by the host and by reset, and a value above
`MAXLEN` makes every command that reads it complete with `ERR = 3`. -/
def Obligations.LenAStoresAnyWord : Prop :=
  State.reset.lenA = 0 ∧
  (∀ (s : State) (v : Word), ∃ t, step (s.issue (.regWrite 0x08 v)) = .next t ∧
    t = { s with lenA := v, answer := none } ∧
    step (t.issue (.regRead 0x08)) = .next { t with answer := some (.word v) }) ∧
  (∀ (s t : State) (a : HostAction), step (s.issue a) = .next t →
    t.lenA = s.lenA ∨ a = .regWrite 0x08 t.lenA ∨ (a = .reset ∧ t.lenA = 0)) ∧
  (∀ (s : State) (i : Instr), s.config.wf = true → s.config.maxLen < s.lenA.toNat →
    exec i s = failsWith .operandLength s)

/-- R10: `LEN_B` is stored the same way; ENC, DEC and TRUNC ignore it whatever its value, CMP reads it. -/
def Obligations.LenBIsReadByCmpOnly : Prop :=
  State.reset.lenB = 0 ∧
  (∀ (s : State) (v : Word), ∃ t, step (s.issue (.regWrite 0x0C v)) = .next t ∧
    t = { s with lenB := v, answer := none } ∧
    step (t.issue (.regRead 0x0C)) = .next { t with answer := some (.word v) }) ∧
  (∀ (s t : State) (a : HostAction), step (s.issue a) = .next t →
    t.lenB = s.lenB ∨ a = .regWrite 0x0C t.lenB ∨ (a = .reset ∧ t.lenB = 0)) ∧
  (∀ (s : State) (i : Instr) (v : Word), i ≠ .cmp →
    ∃ t, exec i s = .next t ∧ exec i { s with lenB := v } = .next { t with lenB := v }) ∧
  (∀ s : State, s.config.maxLen < s.lenB.toNat → exec .cmp s = failsWith .operandLength s)

/-- R25: writes. A write changes the location it names and no other; read-only locations ignore it; at offset 0x00 it
runs the command. -/
def Obligations.WritesChangeTheirLocationOnly : Prop :=
  (∀ (s : State) (w : Word) (i : Instr), decode w = .ok i →
    step (s.issue (.regWrite 0x00 w)) = exec i { s with answer := none }) ∧
  (∀ (s : State) (v : Word),
    step (s.issue (.regWrite 0x08 v)) = .next { s with lenA := v, answer := none } ∧
    step (s.issue (.regWrite 0x0C v)) = .next { s with lenB := v, answer := none } ∧
    step (s.issue (.regWrite 0x04 v)) = .next { s with answer := none } ∧
    step (s.issue (.regWrite 0x10 v)) = .next { s with answer := none } ∧
    step (s.issue (.regWrite 0x14 v)) = .next { s with answer := none } ∧
    step (s.issue (.regWrite 0x18 v)) = .next { s with answer := none }) ∧
  (∀ (s : State) (i : Nat) (b : Byte), s.ibufA.wf → i < s.config.maxLen →
    ∃ t, step (s.issue (.bufWrite .bufA i b)) = .next t ∧ t = { s with ibufA := t.ibufA, answer := none } ∧
      t.ibufA.read i = b ∧ ∀ j, j ≠ i → t.ibufA.read j = s.ibufA.read j) ∧
  (∀ (s : State) (i : Nat) (b : Byte), s.ibufB.wf → i < s.config.maxLen →
    ∃ t, step (s.issue (.bufWrite .bufB i b)) = .next t ∧ t = { s with ibufB := t.ibufB, answer := none } ∧
      t.ibufB.read i = b ∧ ∀ j, j ≠ i → t.ibufB.read j = s.ibufB.read j) ∧
  (∀ (s : State) (i : Nat) (b : Byte), i < ocap s.config →
    step (s.issue (.bufWrite .bufO i b)) = .next { s with answer := none })

/-- R26: an action is refused exactly when it breaks the access rules R22 and R23; every other action goes on. -/
def Obligations.RefusedExactlyOutsideTheAccessRules : Prop :=
  (∀ (s : State) (a : HostAction), (∃ r, step (s.issue a) = .refused r) ↔ a.wf s.config = false) ∧
  (∀ (s : State) (a : HostAction), (∃ t, step (s.issue a) = .next t) ↔ a.wf s.config = true)

/-- An operand byte or length changes only by a write to it or by reset, never by a command or by any other action (R29,
R72, R74): it keeps the value the latest write left. No action, reset among them, changes the model's own parameter or
the actions that still wait (log entries 1, 2). -/
def Obligations.OperandsChangeOnlyByTheirOwnWrite : Prop :=
  ∀ (s t : State) (a : HostAction), step (s.issue a) = .next t →
    t.config = s.config ∧ t.pending = s.pending ∧
    (a ≠ .reset →
      (∀ i, (∀ v, a ≠ .bufWrite .bufA i v) → t.ibufA.read i = s.ibufA.read i) ∧
      (∀ i, (∀ v, a ≠ .bufWrite .bufB i v) → t.ibufB.read i = s.ibufB.read i) ∧
      ((∀ v, a ≠ .regWrite 0x08 v) → t.lenA = s.lenA) ∧ ((∀ v, a ≠ .regWrite 0x0C v) → t.lenB = s.lenB))

/-- Results stay valid until the next command or reset (R72 item 3, R28): no other action disturbs them. -/
def Obligations.ResultsLastUntilTheNextCommand : Prop :=
  ∀ (s t : State) (a : HostAction), a.endsResults = false → step (s.issue a) = .next t → t.sameResults s

/-- R76: when an ENC result can be copied back; an over-long `LEN_A` is no error by itself; an index beyond the region is
refused. -/
def Obligations.CapacityOfTheCopyBack : Prop :=
  (∀ s : State, s.config.wf = true → s.lenA.toNat ≤ s.config.maxLen →
    ∃ t, exec .enc s = .next t ∧ t.olen.toNat ≤ ocap s.config ∧
      (t.olen.toNat ≤ s.config.maxLen ↔ s.lenA.toNat ≤ 5 * (s.config.maxLen / 8))) ∧
  5 * (Config.standard.maxLen / 8) = 160 ∧
  (∀ (s : State) (v : Word), s.config.wf = true → s.config.maxLen < v.toNat →
    ∃ t, step (s.issue (.regWrite 0x08 v)) = .next t ∧ t.err = s.err ∧ t.lenA = v ∧
      ∀ i : Instr, exec i t = failsWith .operandLength t) ∧
  (∀ (s : State) (i : Nat) (b : Byte), s.config.maxLen ≤ i →
    step (s.issue (.bufRead .bufA i)) = .refused .bufferIndex ∧
    step (s.issue (.bufRead .bufB i)) = .refused .bufferIndex ∧
    step (s.issue (.bufWrite .bufA i b)) = .refused .bufferIndex ∧
    step (s.issue (.bufWrite .bufB i b)) = .refused .bufferIndex)

/-- R5: the parameter and the derived capacity. -/
def Obligations.CapacityBounds : Prop :=
  Config.standard.maxLen = 256 ∧ ocap Config.standard = 416 ∧
  (∀ c : Config, c.wf = true ↔ 20 ≤ c.maxLen ∧ c.maxLen ≤ 2 ^ 31) ∧
  (∀ c : Config, ∃ g, ocap c = 8 * g ∧ c.maxLen ≤ 5 * g ∧ 5 * g < c.maxLen + 5) ∧
  (∀ c : Config, c.wf = true → ocap c ≤ 3435973840 ∧ ocap c < 2 ^ 32 ∧ 5 * c.maxLen / 8 ≤ ocap c)

/-! ## Invariants -/

/-- The invariant holds right after reset. -/
def Obligations.ResetSatisfiesTheInvariant : Prop := State.reset.Inv

/-- Every step keeps the invariant: the buffers stay canonical and inside their regions, `OBUF` is 0 from `OLEN` on,
`OLEN <= OCAP`, bit 31 of `RES` is 0, no result stands before the first command or beside an error code, and the
parameter stays legal and unchanged (R5, R11, R12, R14, R15, R16, R64, R72). -/
def Obligations.EveryStepKeepsTheInvariant : Prop :=
  ∀ s t : State, s.Inv → step s = .next t → t.Inv ∧ t.config = s.config

/-- A host that keeps the access rules is never stopped, however long it goes on (R4, R26, R61): from every legal state
in which every waiting action keeps them, every number of steps ends in a next state, which is legal. -/
def Obligations.LegalRunsNeverStop : Prop :=
  ∀ s : State, s.Inv → s.hostKeepsRules →
    ∀ n, ∃ t, Host.Core.run Sys2Proof.core n s = Host.Outcome.next t ∧ State.Inv t

/-! ## The codec -/

/-- Decoding an encoded byte string gives it back. -/
def Obligations.DecodeInvertsEncode : Prop :=
  ∀ b : List Byte, b32dec (b32enc b) = .ok b

/-- R54: the round trip as a function and on the hardware (ENC, the host's copy, DEC), and that the converse fails except
on canonical text. -/
def Obligations.RoundTripOnTheBlock : Prop :=
  (∀ b : List Byte, b32dec (b32enc b) = .ok b) ∧
  (∀ s : State, s.Inv → 8 * ((s.lenA.toNat + 4) / 5) ≤ s.config.maxLen →
    ∃ t u, exec .enc s = .next t ∧ exec .dec t.copyOutputToA = .next u ∧ u.err = .noError ∧ u.done = true ∧
      u.olen = s.lenA ∧ u.obuf.readBytes 0 u.olen.toNat = s.ibufA.readBytes 0 s.lenA.toNat) ∧
  (∃ s d : List Byte, b32dec s = .ok d ∧ b32enc d ≠ s) ∧
  (∀ s d : List Byte, b32dec s = .ok d → b32enc d = s →
    8 ∣ s.length ∧ padRun s = [0, 6, 4, 3, 1].getD (d.length % 5) 0)

/-- R43: lengths and padding of the encoder. -/
def Obligations.EncodedLengths : Prop :=
  (∀ a : List Byte, (b32enc a).length = 8 * ((a.length + 4) / 5) ∧
    ((b32enc a).filter (fun c => c != 0x3D)).length = (8 * a.length + 4) / 5 ∧
    padRun (b32enc a) = [0, 6, 4, 3, 1].getD (a.length % 5) 0 ∧
    zeroFill a.length = [0, 2, 4, 1, 3].getD (a.length % 5) 0 ∧
    (8 * a.length + 4) / 5 % 8 = [0, 2, 4, 5, 7].getD (a.length % 5) 0 ∧
    padRun (b32enc a) ∈ [0, 1, 3, 4, 6] ∧ 8 ∣ (b32enc a).length) ∧
  (∀ (c : Config) (a : List Byte), a.length ≤ c.maxLen → (b32enc a).length ≤ ocap c) ∧
  (∀ (c : Config) (a : List Byte), a.length = c.maxLen → (b32enc a).length = ocap c)

/-- R44: the form by groups of five bytes is `b32enc`. -/
def Obligations.EncoderByGroupsIsTheEncoder : Prop :=
  ∀ a : List Byte, b32encGroups a = b32enc a

/-- R51: the form by groups of eight symbols, with its table of trailing bits, is step 3 of the decoder. -/
def Obligations.DecoderByGroupsIsTheDecoder : Prop :=
  ∀ vs : List SymbolValue, bitsToBytesGroups vs = bitsToBytes vs

/-- R39: the alphabet table, its closed forms, and that `sym` and `val` are inverse bijections. -/
def Obligations.AlphabetTable : Prop :=
  (List.range 32).map (fun v => sym (BitVec.ofNat 5 v)) =
    [0x41, 0x42, 0x43, 0x44, 0x45, 0x46, 0x47, 0x48, 0x49, 0x4A, 0x4B, 0x4C, 0x4D, 0x4E, 0x4F, 0x50,
      0x51, 0x52, 0x53, 0x54, 0x55, 0x56, 0x57, 0x58, 0x59, 0x5A, 0x32, 0x33, 0x34, 0x35, 0x36, 0x37] ∧
  (∀ v : SymbolValue, val (sym v) = some v) ∧
  (∀ (c : Byte) (v : SymbolValue), val c = some v → sym v = c) ∧
  (∀ c : Byte, val c = none ↔ ¬ (0x41 ≤ c.toNat ∧ c.toNat ≤ 0x5A) ∧ ¬ (0x32 ≤ c.toNat ∧ c.toNat ≤ 0x37)) ∧
  (∀ c : Byte, 0x41 ≤ c.toNat ∧ c.toNat ≤ 0x5A → (val c).map BitVec.toNat = some (c.toNat - 0x41)) ∧
  (∀ c : Byte, 0x32 ≤ c.toNat ∧ c.toNat ≤ 0x37 → (val c).map BitVec.toNat = some (c.toNat - 0x32 + 26)) ∧
  padChar = 0x3D ∧ val 0x3D = none

/-- R46: the padding run is the longest run of `=` at the end of the text; a run length outside the set is an error. -/
def Obligations.PaddingRunIsMaximal : Prop :=
  (∀ s : List Byte, padRun s ≤ s.length ∧
    (∀ i, s.length - padRun s ≤ i → i < s.length → s[i]? = some 0x3D) ∧
    (padRun s < s.length → s[s.length - 1 - padRun s]? ≠ some 0x3D) ∧
    (padRun s ∉ [0, 1, 3, 4, 6] → b32dec s = .error .invalidPadding)) ∧
  (∀ n, padRun (List.replicate n 0x3D) = n)

/-- R47: with a permitted run, the text is an `InvalidAlphabet` error exactly when a byte of its body is not the code of
a data symbol. -/
def Obligations.BodyOutsideTheAlphabet : Prop :=
  ∀ s : List Byte, padRun s ∈ [0, 1, 3, 4, 6] →
    (b32dec s = .error .invalidAlphabet ↔
      ∃ c ∈ s.take (s.length - padRun s),
        ¬ (0x41 ≤ c.toNat ∧ c.toNat ≤ 0x5A) ∧ ¬ (0x32 ≤ c.toNat ∧ c.toNat ≤ 0x37))

/-- R48: with a permitted run and a body of data symbols of values `vs`, the bits of the symbols cut into bytes are the
result, if the trailing bits are all 0; if one is 1 the text is an `InvalidPadding` error. -/
def Obligations.SymbolBitsBecomeBytes : Prop :=
  ∀ (s : List Byte) (vs : List SymbolValue), padRun s ∈ [0, 1, 3, 4, 6] →
    (s.take (s.length - padRun s)).map val = vs.map some →
    ((∃ b ∈ (vs.flatMap bitString).drop (8 * (5 * vs.length / 8)), b = true) →
      b32dec s = .error .invalidPadding) ∧
    ((∀ b ∈ (vs.flatMap bitString).drop (8 * (5 * vs.length / 8)), b = false) →
      ∃ d, b32dec s = .ok d ∧ d.length = 5 * vs.length / 8 ∧
        d.flatMap bitString = (vs.flatMap bitString).take (8 * (5 * vs.length / 8)))

/-- R49: the empty text decodes to the empty byte string, and it is not an error. -/
def Obligations.EmptyTextDecodesToNothing : Prop :=
  b32dec [] = .ok [] ∧
  ∀ s : State, s.lenA = 0 → exec .dec s = failsWith .noError s

/-- R52: the padding is not matched against the symbols: any permitted run after any data symbols gives what the symbols
give; and the result is the byte string whose encoding has the same symbols, up to zero-valued tail symbols. -/
def Obligations.PaddingIsNotMatchedAgainstTheSymbols : Prop :=
  (∀ (vs : List SymbolValue) (t : Nat), t ∈ [0, 1, 3, 4, 6] →
    b32dec (vs.map sym ++ List.replicate t 0x3D) = bitsToBytes vs) ∧
  (∀ (vs : List SymbolValue) (d : List Byte), bitsToBytes vs = .ok d →
    (b32enc d).take ((8 * d.length + 4) / 5) = (vs.map sym).take ((8 * d.length + 4) / 5) ∧
    ∀ v ∈ vs.drop ((8 * d.length + 4) / 5), v = 0) ∧
  b32dec [0x41] = .ok [] ∧ b32dec [0x41, 0x41, 0x41] = .ok [0x00] ∧
  b32dec [0x41, 0x41, 0x41, 0x3D] = .ok [0x00] ∧
  b32dec [0x4D, 0x5A, 0x58, 0x57, 0x36, 0x59, 0x54, 0x42, 0x4F, 0x49] =
    .ok [0x66, 0x6F, 0x6F, 0x62, 0x61, 0x72]

/-! ## Truncation and comparison -/

/-- R55: the offset and the masked big-endian window, in arithmetic. -/
def Obligations.TruncationIsTheMaskedBigEndianWindow : Prop :=
  ∀ d : List Byte, d.length = 20 →
    (dt d).1.toNat = (byteAt d 19).toNat % 16 ∧
    (dt d).2.toNat =
      ((byteAt d (dt d).1.toNat).toNat * 2 ^ 24 + (byteAt d ((dt d).1.toNat + 1)).toNat * 2 ^ 16 +
        (byteAt d ((dt d).1.toNat + 2)).toNat * 2 ^ 8 + (byteAt d ((dt d).1.toNat + 3)).toNat) % 2 ^ 31

/-- R57: the window lies inside the digest and never holds its last byte; the value has 31 bits; five bytes decide the
result; the high nibble of the last byte and bit 7 of the window's first byte do not matter. -/
def Obligations.TruncationRanges : Prop :=
  (∀ d : List Byte, d.length = 20 → (dt d).1.toNat ≤ 15 ∧ (dt d).1.toNat + 3 ≤ 18 ∧
    (dt d).2.toNat ≤ 0x7FFFFFFF) ∧
  (∀ d d' : List Byte, d.length = 20 → d'.length = 20 → byteAt d 19 = byteAt d' 19 →
    (∀ k, k < 4 → byteAt d ((dt d).1.toNat + k) = byteAt d' ((dt d).1.toNat + k)) → dt d = dt d') ∧
  (∀ d d' : List Byte, d.length = 20 → d'.length = 20 → (∀ i, i < 19 → byteAt d i = byteAt d' i) →
    byteAt d 19 &&& 0x0F = byteAt d' 19 &&& 0x0F → dt d = dt d') ∧
  (∀ d d' : List Byte, d.length = 20 → d'.length = 20 →
    (∀ i, i < 20 → i ≠ (dt d).1.toNat → byteAt d i = byteAt d' i) →
    byteAt d (dt d).1.toNat &&& 0x7F = byteAt d' (dt d).1.toNat &&& 0x7F → dt d = dt d')

/-- R58: the comparator's bit is 1 exactly when the two strings are the same, else 0; it is symmetric. -/
def Obligations.ComparatorIsEquality : Prop :=
  (∀ a b : List Byte, (tseq a b = 1 ↔ a = b) ∧ (a ≠ b → tseq a b = 0) ∧ tseq a b = tseq b a) ∧
  tseq [] [] = 1

/-- The constant-time property of CMP (R59): what it does inside is a function of the two lengths alone. With unequal
lengths no byte is read and nothing is computed; with equal lengths every pair is read, in order, XORed and ORed, and
one test ends it. The grain of the events is the model's (log entry 7). -/
def Obligations.ComparatorIsConstantTime : Prop :=
  (∀ s : State, s.lenA ≠ s.lenB → cmpEvents s = []) ∧
  (∀ s : State, s.lenA = s.lenB → s.lenA.toNat ≤ s.config.maxLen →
    cmpEvents s =
      (List.range s.lenA.toNat).flatMap
        (fun i => [CmpEvent.readA i, CmpEvent.readB i, CmpEvent.xorStep, CmpEvent.orStep]) ++ [CmpEvent.testAcc]) ∧
  (∀ s s' : State, s.config = s'.config → s.lenA = s'.lenA → s.lenB = s'.lenB → cmpEvents s = cmpEvents s')
end

