-- ==== Sys2Proof/Laws/Bits.lean ====
section
/-!
SUPPORT. Sys2Proof/Laws/Bits.lean: the laws of bit strings that the codec rests on: a value and its bit string
determine each other, and the slices of a string join to the string.
-/

namespace Sys2Proof.Machine

@[simp] theorem length_bitString {n : Nat} (v : BitVec n) : (bitString v).length = n := by
  simp [bitString]

@[simp] theorem num_nil : num [] = 0 := rfl

theorem num_append_singleton (t : List Bool) (b : Bool) : num (t ++ [b]) = 2 * num t + b.toNat := by
  simp [num, List.foldl_append]

theorem num_lt (t : List Bool) : num t < 2 ^ t.length := by
  induction t using List.reverseRecOn with
  | nil => simp
  | append_singleton t b ih =>
    rw [num_append_singleton, List.length_append, List.length_singleton, pow_succ]
    have : b.toNat ≤ 1 := Bool.toNat_le b
    omega

/-- A bit string spells 0 exactly when no bit of it is 1. -/
theorem num_eq_zero {t : List Bool} : num t = 0 ↔ ∀ b ∈ t, b = false := by
  induction t using List.reverseRecOn with
  | nil => simp
  | append_singleton t b ih =>
    rw [num_append_singleton]
    constructor
    · intro h
      have h1 : num t = 0 := by omega
      have h2 : b = false := by
        cases b
        · rfl
        · simp at h
      intro c hc
      rcases List.mem_append.1 hc with hc | hc
      · exact ih.1 h1 c hc
      · simp_all
    · intro h
      have h1 := ih.2 fun c hc => h c (by simp [hc])
      have h2 := h b (by simp)
      simp [h1, h2]

/-- The bits of the number a string spells: bit `j`, counted from the right. -/
theorem testBit_num (t : List Bool) (j : Nat) :
    (num t).testBit j = (t.reverse)[j]?.getD false := by
  induction t using List.reverseRecOn generalizing j with
  | nil => simp
  | append_singleton t b ih =>
    rw [num_append_singleton, List.reverse_append]
    have hb : 2 * num t + b.toNat = Nat.bit b (num t) := by
      cases b <;> simp [Nat.bit]
    rw [hb]
    cases j with
    | zero => simp
    | succ j => simp [Nat.testBit_bit_succ, ih]

/-- The bit string of the value that a string of `n` bits spells is that string. -/
theorem bitString_ofNat_num {n : Nat} {t : List Bool} (h : t.length = n) :
    bitString (BitVec.ofNat n (num t)) = t := by
  apply List.ext_getElem (by simp [h])
  intro k h1 h2
  have hk : k < n := by simpa using h1
  simp only [bitString, List.getElem_map, List.getElem_range, BitVec.getMsbD, BitVec.getLsbD_ofNat,
    testBit_num]
  have hk' : n - 1 - k < t.reverse.length := by simp [h]; omega
  rw [List.getElem?_eq_getElem hk']
  have : n - 1 - k < n := by omega
  simp only [hk, this, decide_true, Bool.true_and, Option.getD_some, List.getElem_reverse]
  congr 1
  omega

/-- The number that the bit string of a value spells is the value. -/
theorem num_bitString {n : Nat} (v : BitVec n) : num (bitString v) = v.toNat := by
  apply Nat.eq_of_testBit_eq
  intro j
  rw [testBit_num]
  by_cases hj : j < n
  · rw [List.getElem?_eq_getElem (by simpa using hj)]
    simp only [List.getElem_reverse, bitString, List.getElem_map, List.getElem_range,
      Option.getD_some, List.length_map, List.length_range]
    rw [BitVec.getMsbD]
    have h1 : n - 1 - j < n := by omega
    have h2 : n - 1 - (n - 1 - j) = j := by omega
    simp [h1, h2, BitVec.getLsbD]
  · rw [List.getElem?_eq_none (by simpa using hj)]
    simp only [Option.getD_none]
    exact (BitVec.getLsbD_of_ge v j (by omega)).symm

theorem ofNat_num_bitString {n : Nat} (v : BitVec n) : BitVec.ofNat n (num (bitString v)) = v := by
  simp [num_bitString]

theorem length_slice {α : Type} (t : List α) (i k : Nat) (h : i + k ≤ t.length) :
    (slice t i k).length = k := by
  simp [slice]; omega

/-- Slices of width `k`, one after the other, join to the string's first `m * k` elements. -/
theorem flatMap_slice {α : Type} (t : List α) (k m : Nat) :
    (List.range m).flatMap (fun j => slice t (k * j) k) = t.take (k * m) := by
  induction m with
  | zero => simp
  | succ m ih =>
    rw [List.range_succ, List.flatMap_append, ih]
    simp only [List.flatMap_cons, List.flatMap_nil, List.append_nil, slice]
    rw [Nat.mul_succ, List.take_add]

/-- Bit strings of width `n`, one after the other: the `j`-th slice of width `n` is the `j`-th bit string. -/
theorem slice_flatMap_bitString {n : Nat} (vs : List (BitVec n)) (j : Nat) (hj : j < vs.length) :
    slice (vs.flatMap bitString) (n * j) n = bitString vs[j] := by
  induction vs generalizing j with
  | nil => simp at hj
  | cons v vs ih =>
    cases j with
    | zero => simp [slice]
    | succ j =>
      simp only [List.flatMap_cons, slice, List.getElem_cons_succ]
      rw [show n * (j + 1) = n + n * j by rw [Nat.mul_succ, Nat.add_comm], List.drop_append,
        List.drop_eq_nil_of_le (by simp), List.nil_append, length_bitString, Nat.add_sub_cancel_left]
      exact ih j (by simpa using hj)

@[simp] theorem length_flatMap_bitString {n : Nat} (vs : List (BitVec n)) :
    (vs.flatMap bitString).length = n * vs.length := by
  induction vs with
  | nil => simp
  | cons v vs ih => simp [ih, Nat.mul_succ, Nat.add_comm]

end Sys2Proof.Machine
end

