-- ==== Sys2Proof/Laws/Codec.lean ====
section
/-!
SUPPORT. Sys2Proof/Laws/Codec.lean: one lemma per part of the codec: lengths, the bit strings inside, the padding run
of a padded text, the values of encoded symbols.
-/

namespace Sys2Proof.Machine

theorem val_sym (v : SymbolValue) : val (sym v) = some v := by
  revert v; decide

theorem sym_ne_padChar (v : SymbolValue) : sym v ≠ padChar := by
  revert v; decide

/-- `8n + z` is the `5m` of R42. -/
theorem zeroFill_symbolCount (n : Nat) : 8 * n + zeroFill n = 5 * symbolCount n := by
  simp only [zeroFill, symbolCount]; omega

/-- `m + p` is the output length of R43. -/
theorem symbolCount_padCount (n : Nat) :
    symbolCount n + padCount (symbolCount n) = 8 * ((n + 4) / 5) := by
  simp only [padCount, symbolCount]; omega

@[simp] theorem length_encoderBits (a : List Byte) : (encoderBits a).length = 5 * symbolCount a.length := by
  rw [encoderBits, List.length_append, length_flatMap_bitString, List.length_replicate, zeroFill_symbolCount]

@[simp] theorem length_b32enc (a : List Byte) : (b32enc a).length = 8 * ((a.length + 4) / 5) := by
  simp [b32enc, symbolCount_padCount]

/-- The data part of an encoder's output, as symbol values. -/
def encodedValues (a : List Byte) : List SymbolValue :=
  (List.range (symbolCount a.length)).map fun j => BitVec.ofNat 5 (num (slice (encoderBits a) (5 * j) 5))

theorem b32enc_eq (a : List Byte) :
    b32enc a = (encodedValues a).map sym ++ List.replicate (padCount (symbolCount a.length)) padChar := by
  simp [b32enc, encodedValues, encodedSymbol, Function.comp_def]

@[simp] theorem length_encodedValues (a : List Byte) : (encodedValues a).length = symbolCount a.length := by
  simp [encodedValues]

/-- The bits of an encoder's symbols are the bits it cut them from: the decoder's `V` is the encoder's `B'`. -/
theorem decoderBits_encodedValues (a : List Byte) : decoderBits (encodedValues a) = encoderBits a := by
  have h : decoderBits (encodedValues a) =
      (List.range (symbolCount a.length)).flatMap (fun j => slice (encoderBits a) (5 * j) 5) := by
    simp only [decoderBits, encodedValues, List.flatMap_map]
    apply List.flatMap_congr
    intro j hj
    have hj' : j < symbolCount a.length := by simpa using hj
    apply bitString_ofNat_num
    apply length_slice
    rw [length_encoderBits]
    omega
  rw [h, flatMap_slice, List.take_of_length_le (by simp)]

theorem padRun_append_replicate (cs : List Byte) (p : Nat) (h : ∀ c ∈ cs, c ≠ padChar) :
    padRun (cs ++ List.replicate p padChar) = p := by
  have h1 : cs.reverse.takeWhile (fun c => c == padChar) = [] := by
    cases hr : cs.reverse with
    | nil => rfl
    | cons c rest =>
      have hc : c ∈ cs := by rw [← List.mem_reverse, hr]; simp
      simp [h c hc]
  have h2 : (List.replicate p padChar).takeWhile (fun c => c == padChar) = List.replicate p padChar := by
    simp
  simp only [padRun, List.reverse_append, List.reverse_replicate]
  rw [List.takeWhile_append, h2]
  simp [h1]

theorem padRun_le (s : List Byte) : padRun s ≤ s.length := by
  simpa [padRun] using (List.takeWhile_sublist (fun c => c == padChar) (l := s.reverse)).length_le

@[simp] theorem length_body (s : List Byte) : (body s).length = s.length - padRun s := by
  simp [body]

theorem symbolValues_map_sym (vs : List SymbolValue) : symbolValues (vs.map sym) = some vs := by
  induction vs with
  | nil => rfl
  | cons v vs ih => simp [symbolValues, val_sym, ih]

theorem symbolValues_length {cs : List Byte} {vs : List SymbolValue} (h : symbolValues cs = some vs) :
    vs.length = cs.length := by
  induction cs generalizing vs with
  | nil => simp_all [symbolValues]
  | cons c cs ih =>
    simp only [symbolValues] at h
    split at h
    · cases h; simp [ih (by assumption)]
    · cases h

@[simp] theorem length_decoderBits (vs : List SymbolValue) : (decoderBits vs).length = 5 * vs.length := by
  rw [decoderBits, length_flatMap_bitString]

/-- Step 3, when it answers bytes: how many, and that no trailing bit was 1. -/
theorem bitsToBytes_ok {vs : List SymbolValue} {d : List Byte} (h : bitsToBytes vs = .ok d) :
    num (trailingBits vs) = 0 ∧ d = (List.range (byteCount vs.length)).map (decodedByte vs) := by
  simp only [bitsToBytes] at h
  split at h
  · cases h
  · rename_i hn
    exact ⟨not_not.1 hn, (Except.ok.inj h).symm⟩

/-- The decoder, when it answers bytes: what it passed on the way. -/
theorem b32dec_ok {s d : List Byte} (h : b32dec s = .ok d) :
    padRunAllowed (padRun s) = true ∧ ∃ vs, symbolValues (body s) = some vs ∧ bitsToBytes vs = .ok d := by
  simp only [b32dec] at h
  split at h
  · rename_i hp
    split at h
    · cases h
    · exact ⟨hp, _, by assumption, h⟩
  · cases h

theorem length_of_b32dec_ok {s d : List Byte} (h : b32dec s = .ok d) :
    d.length = 5 * (s.length - padRun s) / 8 := by
  obtain ⟨-, vs, hvs, hb⟩ := b32dec_ok h
  rw [(bitsToBytes_ok hb).2]
  simp [byteCount, symbolValues_length hvs]

theorem symbolValues_eq_some (cs : List Byte) (vs : List SymbolValue) :
    symbolValues cs = some vs ↔ cs.map val = vs.map some := by
  induction cs generalizing vs with
  | nil => cases vs <;> simp [symbolValues]
  | cons c cs ih =>
    simp only [symbolValues]
    cases hv : val c with
    | none => cases vs <;> simp [hv]
    | some v =>
      cases hs : symbolValues cs with
      | none =>
        cases vs with
        | nil => simp
        | cons w ws =>
          have := (not_congr (ih ws)).1 (by simp [hs])
          simp [hv, this]
      | some us =>
        cases vs with
        | nil => simp
        | cons w ws =>
          have := ih ws
          simp only [hs, Option.some.injEq] at this
          simp [hv, ← this]

theorem symbolValues_eq_none (cs : List Byte) : symbolValues cs = none ↔ ∃ c ∈ cs, val c = none := by
  induction cs with
  | nil => simp [symbolValues]
  | cons c cs ih =>
    simp only [symbolValues]
    cases hv : val c with
    | none => simp [hv]
    | some v =>
      cases hs : symbolValues cs with
      | none => simp [hv, ih.1 hs]
      | some us =>
        have := (not_congr ih).1 (by simp [hs])
        simp [hv, this]

theorem padRunAllowed_iff (t : Nat) : padRunAllowed t = true ↔ t ∈ [0, 1, 3, 4, 6] := by
  simp [padRunAllowed]

/-- The bits of the bytes step 3 cuts are the symbols' bits up to the trailing ones. -/
theorem flatMap_decodedByte (vs : List SymbolValue) :
    ((List.range (byteCount vs.length)).map (decodedByte vs)).flatMap bitString =
      (decoderBits vs).take (8 * byteCount vs.length) := by
  rw [List.flatMap_map, ← flatMap_slice]
  apply List.flatMap_congr
  intro i hi
  apply bitString_ofNat_num
  apply length_slice
  simp only [List.mem_range, byteCount] at hi
  rw [length_decoderBits]; omega

end Sys2Proof.Machine
end

