-- ==== Sys2Proof/Laws/State.lean ====
section
/-!
SUPPORT. Sys2Proof/Laws/State.lean: one lemma per field per update of the state, each true by rfl, so that no proof
unfolds a record update.
-/

namespace Sys2Proof.Machine

@[simp] theorem beginCommand_done (s : State) : (beginCommand s).done = s.done := rfl
@[simp] theorem beginCommand_err (s : State) : (beginCommand s).err = .noError := rfl
@[simp] theorem beginCommand_lenA (s : State) : (beginCommand s).lenA = s.lenA := rfl
@[simp] theorem beginCommand_lenB (s : State) : (beginCommand s).lenB = s.lenB := rfl
@[simp] theorem beginCommand_olen (s : State) : (beginCommand s).olen = 0 := rfl
@[simp] theorem beginCommand_res (s : State) : (beginCommand s).res = 0 := rfl
@[simp] theorem beginCommand_off (s : State) : (beginCommand s).off = 0 := rfl
@[simp] theorem beginCommand_ibufA (s : State) : (beginCommand s).ibufA = s.ibufA := rfl
@[simp] theorem beginCommand_ibufB (s : State) : (beginCommand s).ibufB = s.ibufB := rfl
@[simp] theorem beginCommand_obuf (s : State) : (beginCommand s).obuf = Memory.cleared := rfl
@[simp] theorem beginCommand_config (s : State) : (beginCommand s).config = s.config := rfl
@[simp] theorem beginCommand_pending (s : State) : (beginCommand s).pending = s.pending := rfl
@[simp] theorem beginCommand_answer (s : State) : (beginCommand s).answer = s.answer := rfl

@[simp] theorem completeCommand_done (s : State) : (completeCommand s).done = true := rfl
@[simp] theorem completeCommand_err (s : State) : (completeCommand s).err = s.err := rfl
@[simp] theorem completeCommand_lenA (s : State) : (completeCommand s).lenA = s.lenA := rfl
@[simp] theorem completeCommand_lenB (s : State) : (completeCommand s).lenB = s.lenB := rfl
@[simp] theorem completeCommand_olen (s : State) : (completeCommand s).olen = s.olen := rfl
@[simp] theorem completeCommand_res (s : State) : (completeCommand s).res = s.res := rfl
@[simp] theorem completeCommand_off (s : State) : (completeCommand s).off = s.off := rfl
@[simp] theorem completeCommand_ibufA (s : State) : (completeCommand s).ibufA = s.ibufA := rfl
@[simp] theorem completeCommand_ibufB (s : State) : (completeCommand s).ibufB = s.ibufB := rfl
@[simp] theorem completeCommand_obuf (s : State) : (completeCommand s).obuf = s.obuf := rfl
@[simp] theorem completeCommand_config (s : State) : (completeCommand s).config = s.config := rfl
@[simp] theorem completeCommand_pending (s : State) : (completeCommand s).pending = s.pending := rfl
@[simp] theorem completeCommand_answer (s : State) : (completeCommand s).answer = s.answer := rfl

@[simp] theorem raiseError_done (c : ErrorCode) (s : State) : (raiseError c s).done = true := rfl
@[simp] theorem raiseError_err (c : ErrorCode) (s : State) : (raiseError c s).err = c := rfl
@[simp] theorem raiseError_lenA (c : ErrorCode) (s : State) : (raiseError c s).lenA = s.lenA := rfl
@[simp] theorem raiseError_lenB (c : ErrorCode) (s : State) : (raiseError c s).lenB = s.lenB := rfl
@[simp] theorem raiseError_olen (c : ErrorCode) (s : State) : (raiseError c s).olen = 0 := rfl
@[simp] theorem raiseError_res (c : ErrorCode) (s : State) : (raiseError c s).res = 0 := rfl
@[simp] theorem raiseError_off (c : ErrorCode) (s : State) : (raiseError c s).off = 0 := rfl
@[simp] theorem raiseError_ibufA (c : ErrorCode) (s : State) : (raiseError c s).ibufA = s.ibufA := rfl
@[simp] theorem raiseError_ibufB (c : ErrorCode) (s : State) : (raiseError c s).ibufB = s.ibufB := rfl
@[simp] theorem raiseError_obuf (c : ErrorCode) (s : State) : (raiseError c s).obuf = Memory.cleared := rfl
@[simp] theorem raiseError_config (c : ErrorCode) (s : State) : (raiseError c s).config = s.config := rfl
@[simp] theorem raiseError_pending (c : ErrorCode) (s : State) : (raiseError c s).pending = s.pending := rfl
@[simp] theorem raiseError_answer (c : ErrorCode) (s : State) : (raiseError c s).answer = s.answer := rfl

@[simp] theorem completeWithString_done (t : List Byte) (s : State) : (completeWithString t s).done = true := rfl
@[simp] theorem completeWithString_err (t : List Byte) (s : State) : (completeWithString t s).err = .noError := rfl
@[simp] theorem completeWithString_lenA (t : List Byte) (s : State) : (completeWithString t s).lenA = s.lenA := rfl
@[simp] theorem completeWithString_lenB (t : List Byte) (s : State) : (completeWithString t s).lenB = s.lenB := rfl
@[simp] theorem completeWithString_olen (t : List Byte) (s : State) : (completeWithString t s).olen = BitVec.ofNat 32 t.length := rfl
@[simp] theorem completeWithString_res (t : List Byte) (s : State) : (completeWithString t s).res = 0 := rfl
@[simp] theorem completeWithString_off (t : List Byte) (s : State) : (completeWithString t s).off = 0 := rfl
@[simp] theorem completeWithString_ibufA (t : List Byte) (s : State) : (completeWithString t s).ibufA = s.ibufA := rfl
@[simp] theorem completeWithString_ibufB (t : List Byte) (s : State) : (completeWithString t s).ibufB = s.ibufB := rfl
@[simp] theorem completeWithString_obuf (t : List Byte) (s : State) : (completeWithString t s).obuf = Memory.writeBytes Memory.cleared 0 t := rfl
@[simp] theorem completeWithString_config (t : List Byte) (s : State) : (completeWithString t s).config = s.config := rfl
@[simp] theorem completeWithString_pending (t : List Byte) (s : State) : (completeWithString t s).pending = s.pending := rfl
@[simp] theorem completeWithString_answer (t : List Byte) (s : State) : (completeWithString t s).answer = s.answer := rfl

@[simp] theorem completeWithScalar_done (o : BitVec 4) (v : Word) (s : State) : (completeWithScalar o v s).done = true := rfl
@[simp] theorem completeWithScalar_err (o : BitVec 4) (v : Word) (s : State) : (completeWithScalar o v s).err = .noError := rfl
@[simp] theorem completeWithScalar_lenA (o : BitVec 4) (v : Word) (s : State) : (completeWithScalar o v s).lenA = s.lenA := rfl
@[simp] theorem completeWithScalar_lenB (o : BitVec 4) (v : Word) (s : State) : (completeWithScalar o v s).lenB = s.lenB := rfl
@[simp] theorem completeWithScalar_olen (o : BitVec 4) (v : Word) (s : State) : (completeWithScalar o v s).olen = 0 := rfl
@[simp] theorem completeWithScalar_res (o : BitVec 4) (v : Word) (s : State) : (completeWithScalar o v s).res = v := rfl
@[simp] theorem completeWithScalar_off (o : BitVec 4) (v : Word) (s : State) : (completeWithScalar o v s).off = o := rfl
@[simp] theorem completeWithScalar_ibufA (o : BitVec 4) (v : Word) (s : State) : (completeWithScalar o v s).ibufA = s.ibufA := rfl
@[simp] theorem completeWithScalar_ibufB (o : BitVec 4) (v : Word) (s : State) : (completeWithScalar o v s).ibufB = s.ibufB := rfl
@[simp] theorem completeWithScalar_obuf (o : BitVec 4) (v : Word) (s : State) : (completeWithScalar o v s).obuf = Memory.cleared := rfl
@[simp] theorem completeWithScalar_config (o : BitVec 4) (v : Word) (s : State) : (completeWithScalar o v s).config = s.config := rfl
@[simp] theorem completeWithScalar_pending (o : BitVec 4) (v : Word) (s : State) : (completeWithScalar o v s).pending = s.pending := rfl
@[simp] theorem completeWithScalar_answer (o : BitVec 4) (v : Word) (s : State) : (completeWithScalar o v s).answer = s.answer := rfl

@[simp] theorem issue_done (s : State) (a : HostAction) : (s.issue a).done = s.done := rfl
@[simp] theorem issue_err (s : State) (a : HostAction) : (s.issue a).err = s.err := rfl
@[simp] theorem issue_lenA (s : State) (a : HostAction) : (s.issue a).lenA = s.lenA := rfl
@[simp] theorem issue_lenB (s : State) (a : HostAction) : (s.issue a).lenB = s.lenB := rfl
@[simp] theorem issue_olen (s : State) (a : HostAction) : (s.issue a).olen = s.olen := rfl
@[simp] theorem issue_res (s : State) (a : HostAction) : (s.issue a).res = s.res := rfl
@[simp] theorem issue_off (s : State) (a : HostAction) : (s.issue a).off = s.off := rfl
@[simp] theorem issue_ibufA (s : State) (a : HostAction) : (s.issue a).ibufA = s.ibufA := rfl
@[simp] theorem issue_ibufB (s : State) (a : HostAction) : (s.issue a).ibufB = s.ibufB := rfl
@[simp] theorem issue_obuf (s : State) (a : HostAction) : (s.issue a).obuf = s.obuf := rfl
@[simp] theorem issue_config (s : State) (a : HostAction) : (s.issue a).config = s.config := rfl
@[simp] theorem issue_pending (s : State) (a : HostAction) : (s.issue a).pending = a :: s.pending := rfl
@[simp] theorem issue_answer (s : State) (a : HostAction) : (s.issue a).answer = s.answer := rfl

@[simp] theorem withFetchWord_done (s : State) (n w : Nat) : (s.withFetchWord n w).done = s.done := rfl
@[simp] theorem withFetchWord_err (s : State) (n w : Nat) : (s.withFetchWord n w).err = s.err := rfl
@[simp] theorem withFetchWord_lenA (s : State) (n w : Nat) : (s.withFetchWord n w).lenA = s.lenA := rfl
@[simp] theorem withFetchWord_lenB (s : State) (n w : Nat) : (s.withFetchWord n w).lenB = s.lenB := rfl
@[simp] theorem withFetchWord_olen (s : State) (n w : Nat) : (s.withFetchWord n w).olen = s.olen := rfl
@[simp] theorem withFetchWord_res (s : State) (n w : Nat) : (s.withFetchWord n w).res = s.res := rfl
@[simp] theorem withFetchWord_off (s : State) (n w : Nat) : (s.withFetchWord n w).off = s.off := rfl
@[simp] theorem withFetchWord_ibufA (s : State) (n w : Nat) : (s.withFetchWord n w).ibufA = s.ibufA := rfl
@[simp] theorem withFetchWord_ibufB (s : State) (n w : Nat) : (s.withFetchWord n w).ibufB = s.ibufB := rfl
@[simp] theorem withFetchWord_obuf (s : State) (n w : Nat) : (s.withFetchWord n w).obuf = s.obuf := rfl
@[simp] theorem withFetchWord_config (s : State) (n w : Nat) : (s.withFetchWord n w).config = s.config := rfl
@[simp] theorem withFetchWord_pending (s : State) (n w : Nat) : (s.withFetchWord n w).pending = .regWrite 0x00 (BitVec.ofNat 32 (w % 2 ^ n)) :: s.pending := rfl
@[simp] theorem withFetchWord_answer (s : State) (n w : Nat) : (s.withFetchWord n w).answer = s.answer := rfl

@[simp] theorem copyOutputToA_done (s : State) : (s.copyOutputToA).done = s.done := rfl
@[simp] theorem copyOutputToA_err (s : State) : (s.copyOutputToA).err = s.err := rfl
@[simp] theorem copyOutputToA_lenA (s : State) : (s.copyOutputToA).lenA = s.olen := rfl
@[simp] theorem copyOutputToA_lenB (s : State) : (s.copyOutputToA).lenB = s.lenB := rfl
@[simp] theorem copyOutputToA_olen (s : State) : (s.copyOutputToA).olen = s.olen := rfl
@[simp] theorem copyOutputToA_res (s : State) : (s.copyOutputToA).res = s.res := rfl
@[simp] theorem copyOutputToA_off (s : State) : (s.copyOutputToA).off = s.off := rfl
@[simp] theorem copyOutputToA_ibufA (s : State) : (s.copyOutputToA).ibufA = s.ibufA.writeBytes 0 (s.obuf.readBytes 0 s.olen.toNat) := rfl
@[simp] theorem copyOutputToA_ibufB (s : State) : (s.copyOutputToA).ibufB = s.ibufB := rfl
@[simp] theorem copyOutputToA_obuf (s : State) : (s.copyOutputToA).obuf = s.obuf := rfl
@[simp] theorem copyOutputToA_config (s : State) : (s.copyOutputToA).config = s.config := rfl
@[simp] theorem copyOutputToA_pending (s : State) : (s.copyOutputToA).pending = s.pending := rfl
@[simp] theorem copyOutputToA_answer (s : State) : (s.copyOutputToA).answer = s.answer := rfl

@[simp] theorem writeBuffer_bufA_done (s : State) (i : Nat) (v : Byte) : (writeBuffer s .bufA i v).done = s.done := rfl
@[simp] theorem writeBuffer_bufA_err (s : State) (i : Nat) (v : Byte) : (writeBuffer s .bufA i v).err = s.err := rfl
@[simp] theorem writeBuffer_bufA_lenA (s : State) (i : Nat) (v : Byte) : (writeBuffer s .bufA i v).lenA = s.lenA := rfl
@[simp] theorem writeBuffer_bufA_lenB (s : State) (i : Nat) (v : Byte) : (writeBuffer s .bufA i v).lenB = s.lenB := rfl
@[simp] theorem writeBuffer_bufA_olen (s : State) (i : Nat) (v : Byte) : (writeBuffer s .bufA i v).olen = s.olen := rfl
@[simp] theorem writeBuffer_bufA_res (s : State) (i : Nat) (v : Byte) : (writeBuffer s .bufA i v).res = s.res := rfl
@[simp] theorem writeBuffer_bufA_off (s : State) (i : Nat) (v : Byte) : (writeBuffer s .bufA i v).off = s.off := rfl
@[simp] theorem writeBuffer_bufA_ibufA (s : State) (i : Nat) (v : Byte) : (writeBuffer s .bufA i v).ibufA = s.ibufA.write i v := rfl
@[simp] theorem writeBuffer_bufA_ibufB (s : State) (i : Nat) (v : Byte) : (writeBuffer s .bufA i v).ibufB = s.ibufB := rfl
@[simp] theorem writeBuffer_bufA_obuf (s : State) (i : Nat) (v : Byte) : (writeBuffer s .bufA i v).obuf = s.obuf := rfl
@[simp] theorem writeBuffer_bufA_config (s : State) (i : Nat) (v : Byte) : (writeBuffer s .bufA i v).config = s.config := rfl
@[simp] theorem writeBuffer_bufA_pending (s : State) (i : Nat) (v : Byte) : (writeBuffer s .bufA i v).pending = s.pending := rfl
@[simp] theorem writeBuffer_bufA_answer (s : State) (i : Nat) (v : Byte) : (writeBuffer s .bufA i v).answer = s.answer := rfl

@[simp] theorem writeBuffer_bufB_done (s : State) (i : Nat) (v : Byte) : (writeBuffer s .bufB i v).done = s.done := rfl
@[simp] theorem writeBuffer_bufB_err (s : State) (i : Nat) (v : Byte) : (writeBuffer s .bufB i v).err = s.err := rfl
@[simp] theorem writeBuffer_bufB_lenA (s : State) (i : Nat) (v : Byte) : (writeBuffer s .bufB i v).lenA = s.lenA := rfl
@[simp] theorem writeBuffer_bufB_lenB (s : State) (i : Nat) (v : Byte) : (writeBuffer s .bufB i v).lenB = s.lenB := rfl
@[simp] theorem writeBuffer_bufB_olen (s : State) (i : Nat) (v : Byte) : (writeBuffer s .bufB i v).olen = s.olen := rfl
@[simp] theorem writeBuffer_bufB_res (s : State) (i : Nat) (v : Byte) : (writeBuffer s .bufB i v).res = s.res := rfl
@[simp] theorem writeBuffer_bufB_off (s : State) (i : Nat) (v : Byte) : (writeBuffer s .bufB i v).off = s.off := rfl
@[simp] theorem writeBuffer_bufB_ibufA (s : State) (i : Nat) (v : Byte) : (writeBuffer s .bufB i v).ibufA = s.ibufA := rfl
@[simp] theorem writeBuffer_bufB_ibufB (s : State) (i : Nat) (v : Byte) : (writeBuffer s .bufB i v).ibufB = s.ibufB.write i v := rfl
@[simp] theorem writeBuffer_bufB_obuf (s : State) (i : Nat) (v : Byte) : (writeBuffer s .bufB i v).obuf = s.obuf := rfl
@[simp] theorem writeBuffer_bufB_config (s : State) (i : Nat) (v : Byte) : (writeBuffer s .bufB i v).config = s.config := rfl
@[simp] theorem writeBuffer_bufB_pending (s : State) (i : Nat) (v : Byte) : (writeBuffer s .bufB i v).pending = s.pending := rfl
@[simp] theorem writeBuffer_bufB_answer (s : State) (i : Nat) (v : Byte) : (writeBuffer s .bufB i v).answer = s.answer := rfl

@[simp] theorem writeBuffer_bufO_done (s : State) (i : Nat) (v : Byte) : (writeBuffer s .bufO i v).done = s.done := rfl
@[simp] theorem writeBuffer_bufO_err (s : State) (i : Nat) (v : Byte) : (writeBuffer s .bufO i v).err = s.err := rfl
@[simp] theorem writeBuffer_bufO_lenA (s : State) (i : Nat) (v : Byte) : (writeBuffer s .bufO i v).lenA = s.lenA := rfl
@[simp] theorem writeBuffer_bufO_lenB (s : State) (i : Nat) (v : Byte) : (writeBuffer s .bufO i v).lenB = s.lenB := rfl
@[simp] theorem writeBuffer_bufO_olen (s : State) (i : Nat) (v : Byte) : (writeBuffer s .bufO i v).olen = s.olen := rfl
@[simp] theorem writeBuffer_bufO_res (s : State) (i : Nat) (v : Byte) : (writeBuffer s .bufO i v).res = s.res := rfl
@[simp] theorem writeBuffer_bufO_off (s : State) (i : Nat) (v : Byte) : (writeBuffer s .bufO i v).off = s.off := rfl
@[simp] theorem writeBuffer_bufO_ibufA (s : State) (i : Nat) (v : Byte) : (writeBuffer s .bufO i v).ibufA = s.ibufA := rfl
@[simp] theorem writeBuffer_bufO_ibufB (s : State) (i : Nat) (v : Byte) : (writeBuffer s .bufO i v).ibufB = s.ibufB := rfl
@[simp] theorem writeBuffer_bufO_obuf (s : State) (i : Nat) (v : Byte) : (writeBuffer s .bufO i v).obuf = s.obuf := rfl
@[simp] theorem writeBuffer_bufO_config (s : State) (i : Nat) (v : Byte) : (writeBuffer s .bufO i v).config = s.config := rfl
@[simp] theorem writeBuffer_bufO_pending (s : State) (i : Nat) (v : Byte) : (writeBuffer s .bufO i v).pending = s.pending := rfl
@[simp] theorem writeBuffer_bufO_answer (s : State) (i : Nat) (v : Byte) : (writeBuffer s .bufO i v).answer = s.answer := rfl

@[simp] theorem reset_done : State.reset.done = false := rfl
@[simp] theorem reset_err : State.reset.err = .noError := rfl
@[simp] theorem reset_lenA : State.reset.lenA = 0 := rfl
@[simp] theorem reset_lenB : State.reset.lenB = 0 := rfl
@[simp] theorem reset_olen : State.reset.olen = 0 := rfl
@[simp] theorem reset_res : State.reset.res = 0 := rfl
@[simp] theorem reset_off : State.reset.off = 0 := rfl
@[simp] theorem reset_ibufA : State.reset.ibufA = [] := rfl
@[simp] theorem reset_ibufB : State.reset.ibufB = [] := rfl
@[simp] theorem reset_obuf : State.reset.obuf = [] := rfl
@[simp] theorem reset_config : State.reset.config = Config.standard := rfl
@[simp] theorem reset_pending : State.reset.pending = [] := rfl
@[simp] theorem reset_answer : State.reset.answer = none := rfl

end Sys2Proof.Machine
end

