-- ==== Sys2Proof/Laws/Memory.lean ====
section
/-!
SUPPORT. Sys2Proof/Laws/Memory.lean: the laws of buffers: a read after a write, the frame of a write, and that every
operation keeps the canonical form and the bound on the indices.
-/

namespace Sys2Proof.Machine

namespace Memory

@[simp] theorem cleared_eq : Memory.cleared = [] := rfl

@[simp] theorem read_nil (i : Nat) : Memory.read [] i = unlistedByte := rfl

theorem read_cons (j : Nat) (v : Byte) (m : Memory) (i : Nat) :
    Memory.read ((j, v) :: m) i = if j = i then v else Memory.read m i := rfl

theorem wf_nil : Memory.wf [] := by simp [Memory.wf]

theorem below_nil (n : Nat) : Memory.below n [] := by simp [Memory.below]

theorem wf_cons {j : Nat} {v : Byte} {m : Memory} :
    Memory.wf ((j, v) :: m) ↔ (∀ p ∈ m, j < p.1) ∧ v ≠ unlistedByte ∧ Memory.wf m := by
  simp only [Memory.wf, List.pairwise_cons, List.mem_cons, forall_eq_or_imp]
  tauto

/-- An index that no cell lists reads as the unlisted byte. -/
theorem read_of_unlisted {m : Memory} {i : Nat} (h : ∀ p ∈ m, p.1 ≠ i) : m.read i = unlistedByte := by
  induction m with
  | nil => rfl
  | cons p m ih =>
    obtain ⟨j, v⟩ := p
    have hj : j ≠ i := h (j, v) (by simp)
    rw [read_cons, if_neg hj]
    exact ih fun q hq => h q (by simp [hq])

theorem read_of_below {m : Memory} {n i : Nat} (h : Memory.below n m) (hi : n ≤ i) :
    m.read i = unlistedByte :=
  read_of_unlisted fun p hp => Nat.ne_of_lt (lt_of_lt_of_le (h p hp) hi)

/-- A cell of a written buffer is the written one or one that was there. -/
theorem mem_write {m : Memory} {i : Nat} {b : Byte} {p : Host.Cell} (h : p ∈ m.write i b) :
    (p = (i, b) ∧ b ≠ unlistedByte) ∨ p ∈ m := by
  induction m with
  | nil =>
    simp only [Memory.write] at h
    split at h <;> simp_all
  | cons q m ih =>
    obtain ⟨j, v⟩ := q
    simp only [Memory.write] at h
    split_ifs at h <;> simp only [List.mem_cons] at h ⊢ <;> tauto

theorem write_below {m : Memory} {n i : Nat} {b : Byte} (h : Memory.below n m) (hi : i < n) :
    Memory.below n (m.write i b) := by
  intro p hp
  rcases mem_write hp with ⟨rfl, -⟩ | hm
  · exact hi
  · exact h p hm

/-- A write keeps the canonical form. -/
theorem write_wf {m : Memory} {i : Nat} {b : Byte} (h : Memory.wf m) : Memory.wf (m.write i b) := by
  induction m with
  | nil =>
    simp only [Memory.write]
    split
    · exact wf_nil
    · rw [wf_cons]; exact ⟨by simp, by assumption, wf_nil⟩
  | cons q m ih =>
    obtain ⟨j, v⟩ := q
    have hjv := wf_cons.1 h
    obtain ⟨hlt, hv, hm⟩ := hjv
    simp only [Memory.write]
    split_ifs with h1 h2 h3 h4
    · exact h
    · rw [wf_cons]
      refine ⟨?_, h2, h⟩
      intro p hp
      rcases List.mem_cons.1 hp with rfl | hp
      · exact h1
      · exact lt_trans h1 (hlt p hp)
    · exact hm
    · subst h3
      exact wf_cons.2 ⟨hlt, h4, hm⟩
    · rw [wf_cons]
      refine ⟨?_, hv, ih hm⟩
      intro p hp
      rcases mem_write hp with ⟨rfl, -⟩ | hp
      · dsimp only; omega
      · exact hlt p hp

/-- A read after a write to the same index gives the byte written. -/
theorem read_write_same {m : Memory} (h : Memory.wf m) (i : Nat) (b : Byte) : (m.write i b).read i = b := by
  induction m with
  | nil =>
    simp only [Memory.write]
    split
    · simp_all
    · simp [read_cons]
  | cons q m ih =>
    obtain ⟨j, v⟩ := q
    obtain ⟨hlt, hv, hm⟩ := wf_cons.1 h
    simp only [Memory.write]
    split_ifs with h1 h2 h3 h4
    · subst h2
      apply read_of_unlisted
      intro p hp
      rcases List.mem_cons.1 hp with rfl | hp
      · dsimp only; omega
      · have := hlt p hp; omega
    · simp [read_cons]
    · subst h4 h3
      apply read_of_unlisted
      intro p hp
      have := hlt p hp
      omega
    · simp [read_cons]
    · rw [read_cons, if_neg (by omega)]
      exact ih hm

/-- A write leaves every other index alone. -/
theorem read_write_other {m : Memory} {i k : Nat} (b : Byte) (hk : k ≠ i) :
    (m.write i b).read k = m.read k := by
  induction m with
  | nil =>
    simp only [Memory.write]
    split
    · rfl
    · simp [read_cons, Ne.symm hk]
  | cons q m ih =>
    obtain ⟨j, v⟩ := q
    simp only [Memory.write]
    split_ifs with h1 h2 h3 h4
    · rfl
    · rw [read_cons, if_neg (Ne.symm hk)]
    · subst h3; rw [read_cons, if_neg (Ne.symm hk)]
    · subst h3; rw [read_cons, read_cons, if_neg (Ne.symm hk), if_neg (Ne.symm hk)]
    · rw [read_cons, read_cons, ih]

theorem read_write {m : Memory} (h : Memory.wf m) (i k : Nat) (b : Byte) :
    (m.write i b).read k = if k = i then b else m.read k := by
  split
  · subst_vars; exact read_write_same h _ _
  · exact read_write_other b (by assumption)

@[simp] theorem length_readBytes (m : Memory) (i n : Nat) : (m.readBytes i n).length = n := by
  induction n generalizing i with
  | zero => rfl
  | succ n ih => simp [Memory.readBytes, ih]

theorem getElem_readBytes (m : Memory) (i n k : Nat) (hk : k < (m.readBytes i n).length) :
    (m.readBytes i n)[k] = m.read (i + k) := by
  induction n generalizing i k with
  | zero => simp [Memory.readBytes] at hk
  | succ n ih =>
    cases k with
    | zero => rfl
    | succ k =>
      simp only [Memory.readBytes, List.getElem_cons_succ]
      rw [ih]
      congr 1
      omega

/-- `MemRead` depends on the bytes it reads and nothing else. -/
theorem readBytes_congr {m m' : Memory} {i n : Nat} (h : ∀ k, k < n → m.read (i + k) = m'.read (i + k)) :
    m.readBytes i n = m'.readBytes i n := by
  apply List.ext_getElem (by simp)
  intro k h1 h2
  rw [getElem_readBytes, getElem_readBytes]
  exact h k (by simpa using h1)

theorem writeBytes_wf {m : Memory} (i : Nat) (s : List Byte) (h : Memory.wf m) :
    Memory.wf (m.writeBytes i s) := by
  induction s generalizing i m with
  | nil => exact h
  | cons b s ih => exact ih (i + 1) (write_wf h)

theorem writeBytes_below {m : Memory} {n : Nat} (i : Nat) (s : List Byte) (h : Memory.below n m)
    (hn : i + s.length ≤ n) : Memory.below n (m.writeBytes i s) := by
  induction s generalizing i m with
  | nil => exact h
  | cons b s ih =>
    simp only [List.length_cons] at hn
    exact ih (i + 1) (write_below h (by omega)) (by omega)

/-- What every index reads after `MemWrite`. -/
theorem read_writeBytes {m : Memory} (h : Memory.wf m) (i : Nat) (s : List Byte) (k : Nat) :
    (m.writeBytes i s).read k = if i ≤ k ∧ k < i + s.length then byteAt s (k - i) else m.read k := by
  induction s generalizing i m with
  | nil => simp [Memory.writeBytes]
  | cons b s ih =>
    simp only [Memory.writeBytes, List.length_cons]
    rw [ih (write_wf h), read_write h]
    by_cases hk : k = i
    · subst hk
      rw [if_neg (by omega), if_pos rfl, if_pos (by omega)]
      simp [byteAt]
    · by_cases hr : i + 1 ≤ k ∧ k < i + 1 + s.length
      · rw [if_pos hr, if_pos (by omega)]
        obtain ⟨d, rfl⟩ : ∃ d, k = i + 1 + d := ⟨k - (i + 1), by omega⟩
        have h1 : i + 1 + d - (i + 1) = d := by omega
        have h2 : i + 1 + d - i = d + 1 := by omega
        simp [byteAt, h1, h2]
      · rw [if_neg hr, if_neg hk, if_neg (by omega)]

/-- `MemRead` of what `MemWrite` wrote. -/
theorem readBytes_writeBytes {m : Memory} (h : Memory.wf m) (i : Nat) (s : List Byte) :
    (m.writeBytes i s).readBytes i s.length = s := by
  apply List.ext_getElem (by simp)
  intro k h1 h2
  rw [getElem_readBytes, read_writeBytes h, if_pos (by omega)]
  simp [byteAt, h2]

/-- Two canonical buffers that read alike are equal data. -/
theorem eq_of_read_eq {m m' : Memory} (h : Memory.wf m) (h' : Memory.wf m')
    (hr : ∀ i, m.read i = m'.read i) : m = m' := by
  induction m generalizing m' with
  | nil =>
    cases m' with
    | nil => rfl
    | cons q m' =>
      obtain ⟨j, v⟩ := q
      have := hr j
      simp only [read_nil, read_cons, if_pos] at this
      exact absurd this.symm (wf_cons.1 h').2.1
  | cons p m ih =>
    obtain ⟨i, u⟩ := p
    obtain ⟨hlt, hu, hm⟩ := wf_cons.1 h
    cases m' with
    | nil =>
      have := hr i
      simp only [read_nil, read_cons, if_pos] at this
      exact absurd this hu
    | cons q m' =>
      obtain ⟨j, v⟩ := q
      obtain ⟨hlt', hv, hm'⟩ := wf_cons.1 h'
      have hij : i = j := by
        rcases Nat.lt_trichotomy i j with hlt2 | rfl | hlt2
        · have := hr i
          rw [read_cons, if_pos rfl, read_cons, if_neg (by omega),
            read_of_unlisted (fun p hp => by have := hlt' p hp; omega)] at this
          exact absurd this hu
        · rfl
        · have := hr j
          rw [read_cons, if_neg (by omega), read_cons, if_pos rfl,
            read_of_unlisted (fun p hp => by have := hlt p hp; omega)] at this
          exact absurd this.symm hv
      subst hij
      have huv : u = v := by simpa [read_cons] using hr i
      subst huv
      rw [ih hm hm']
      intro k
      by_cases hk : i = k
      · subst hk
        rw [read_of_unlisted (fun p hp => by have := hlt p hp; omega),
          read_of_unlisted (fun p hp => by have := hlt' p hp; omega)]
      · simpa [read_cons, hk] using hr k

end Memory

end Sys2Proof.Machine
end

