-- ==== Sys2Proof/Laws/PerInstr.lean ====
section
/-!
SUPPORT. Sys2Proof/Laws/PerInstr.lean: the per-instruction family CommandWord: the word of an instruction is a legal
command word whose OP is the instruction's code, and the instruction is well formed (R34, R35, R37).
-/

namespace Sys2Proof.Laws.CommandWord

/-- The word written for an instruction has `RSV = 0`, carries its code in `OP` and nothing else. -/
def Statement (i : Instr) : Prop :=
  i.wf = true ∧ commandWordWf (encode i) = true ∧ rsvField (encode i) = 0 ∧ opField (encode i) = opcodeOf i

theorem enc : Statement .enc := by unfold Statement; decide
theorem dec : Statement .dec := by unfold Statement; decide
theorem trunc : Statement .trunc := by unfold Statement; decide
theorem cmp : Statement .cmp := by unfold Statement; decide

end Sys2Proof.Laws.CommandWord
end

