-- ==== Sys2Proof/Laws/Step.lean ====
section
/-!
SUPPORT. Sys2Proof/Laws/Step.lean: once for each shared operation and each meaning, everything it can do.
-/

namespace Sys2Proof.Machine

theorem step_issue (s : State) (a : HostAction) :
    step (s.issue a) = performAction a { s with answer := none } := rfl

theorem step_of_pending {s : State} {a : HostAction} {rest : List HostAction} (h : s.pending = a :: rest) :
    step s = performAction a { s with pending := rest, answer := none } := by
  simp [step, nextAction, h]

theorem length_operandA (s : State) : (operandA s).length = s.lenA.toNat := by simp [operandA]

theorem length_operandB (s : State) : (operandB s).length = s.lenB.toNat := by simp [operandB]

theorem lenATooLong_iff (s : State) : lenATooLong s = true ↔ s.config.maxLen < s.lenA.toNat := by
  simp [lenATooLong]

theorem lenBTooLong_iff (s : State) : lenBTooLong s = true ↔ s.config.maxLen < s.lenB.toNat := by
  simp [lenBTooLong]

/-- Everything ENC can do. -/
theorem execEnc_cases (s : State) :
    (s.config.maxLen < s.lenA.toNat ∧ execEnc s = .next (raiseError .operandLength s)) ∨
    (s.lenA.toNat ≤ s.config.maxLen ∧
      execEnc s = .next (completeWithString (b32enc (operandA s)) s)) := by
  by_cases h : s.config.maxLen < s.lenA.toNat
  · exact .inl ⟨h, by simp [execEnc, lenATooLong, h]⟩
  · exact .inr ⟨by omega, by simp [execEnc, lenATooLong, h]⟩

/-- Everything DEC can do. -/
theorem execDec_cases (s : State) :
    (s.config.maxLen < s.lenA.toNat ∧ execDec s = .next (raiseError .operandLength s)) ∨
    (s.lenA.toNat ≤ s.config.maxLen ∧ ∃ d, b32dec (operandA s) = .ok d ∧
      execDec s = .next (completeWithString d s)) ∨
    (s.lenA.toNat ≤ s.config.maxLen ∧ ∃ e, b32dec (operandA s) = .error e ∧
      execDec s = .next (raiseError e.toErrorCode s)) := by
  by_cases h : s.config.maxLen < s.lenA.toNat
  · exact .inl ⟨h, by simp [execDec, lenATooLong, h]⟩
  · right
    cases hd : b32dec (operandA s) with
    | ok d => exact .inl ⟨by omega, d, rfl, by simp [execDec, lenATooLong, h, hd]⟩
    | error e => exact .inr ⟨by omega, e, rfl, by simp [execDec, lenATooLong, h, hd]⟩

/-- Everything TRUNC can do. -/
theorem execTrunc_cases (s : State) :
    (s.lenA.toNat ≠ digestLength ∧ execTrunc s = .next (raiseError .operandLength s)) ∨
    (s.lenA.toNat = digestLength ∧
      execTrunc s = .next (completeWithScalar (dtOffset (digestOperand s)) (dtValue (digestOperand s)) s)) := by
  by_cases h : s.lenA.toNat = digestLength
  · exact .inr ⟨h, by simp [execTrunc, h, dt]⟩
  · exact .inl ⟨h, by simp [execTrunc, h]⟩

/-- Everything CMP can do. -/
theorem execCmp_cases (s : State) :
    ((s.config.maxLen < s.lenA.toNat ∨ s.config.maxLen < s.lenB.toNat) ∧
      execCmp s = .next (raiseError .operandLength s)) ∨
    (s.lenA.toNat ≤ s.config.maxLen ∧ s.lenB.toNat ≤ s.config.maxLen ∧
      execCmp s = .next (completeWithScalar 0 ((cmpRun s).1.zeroExtend 32) s)) := by
  by_cases h : s.config.maxLen < s.lenA.toNat
  · exact .inl ⟨.inl h, by simp [execCmp, lenATooLong, h]⟩
  · by_cases h' : s.config.maxLen < s.lenB.toNat
    · exact .inl ⟨.inr h', by simp [execCmp, lenATooLong, lenBTooLong, h, h']⟩
    · exact .inr ⟨by omega, by omega, by simp [execCmp, lenATooLong, lenBTooLong, h, h']⟩

/-- The three ways a command that went through `exec` ends. -/
theorem exec_cases (i : Instr) (s : State) :
    (∃ c, c ≠ .noError ∧ exec i s = .next (raiseError c s)) ∨
    (∃ d, (d = b32enc (operandA s) ∨ b32dec (operandA s) = .ok d) ∧ s.lenA.toNat ≤ s.config.maxLen ∧
      exec i s = .next (completeWithString d s)) ∨
    (∃ o v, ((o, v) = dt (digestOperand s) ∨ (o, v) = (0, (cmpRun s).1.zeroExtend 32)) ∧
      exec i s = .next (completeWithScalar o v s)) := by
  cases i with
  | enc =>
    rcases execEnc_cases s with ⟨-, h⟩ | ⟨hl, h⟩
    · exact .inl ⟨_, by simp, h⟩
    · exact .inr (.inl ⟨_, .inl rfl, hl, h⟩)
  | dec =>
    rcases execDec_cases s with ⟨-, h⟩ | ⟨hl, d, hd, h⟩ | ⟨-, e, -, h⟩
    · exact .inl ⟨_, by simp, h⟩
    · exact .inr (.inl ⟨d, .inr hd, hl, h⟩)
    · exact .inl ⟨_, by cases e <;> simp [DecodeError.toErrorCode], h⟩
  | trunc =>
    rcases execTrunc_cases s with ⟨-, h⟩ | ⟨-, h⟩
    · exact .inl ⟨_, by simp, h⟩
    · exact .inr (.inr ⟨_, _, .inl rfl, h⟩)
  | cmp =>
    rcases execCmp_cases s with ⟨-, h⟩ | ⟨-, -, h⟩
    · exact .inl ⟨_, by simp, h⟩
    · exact .inr (.inr ⟨_, _, .inr rfl, h⟩)

/-- Every way `runCommand` can end. -/
theorem runCommand_cases (w : Word) (s : State) :
    (∃ i, decode w = .ok i ∧ runCommand w s = exec i s) ∨
    (∃ r, decode w = .error r ∧ runCommand w s = .next (raiseError .illegalCommand s)) := by
  cases h : decode w with
  | ok i => exact .inl ⟨i, rfl, by simp [runCommand, h]⟩
  | error r => exact .inr ⟨r, rfl, by simp [runCommand, h]⟩

/-- The three ways a command ends, whatever its word. -/
theorem runCommand_ends (w : Word) (s : State) :
    (∃ c, c ≠ .noError ∧ runCommand w s = .next (raiseError c s)) ∨
    (∃ d, (d = b32enc (operandA s) ∨ b32dec (operandA s) = .ok d) ∧ s.lenA.toNat ≤ s.config.maxLen ∧
      runCommand w s = .next (completeWithString d s)) ∨
    (∃ o v, ((o, v) = dt (digestOperand s) ∨ (o, v) = (0, (cmpRun s).1.zeroExtend 32)) ∧
      runCommand w s = .next (completeWithScalar o v s)) := by
  rcases runCommand_cases w s with ⟨i, -, h⟩ | ⟨r, -, h⟩
  · rw [h]; exact exec_cases i s
  · exact .inl ⟨_, by simp, h⟩

/-- What stands in `OLEN` and `OBUF` after a command that ended with a result string that fits 32 bits. -/
theorem completeWithString_output (d : List Byte) (s : State) (hd : d.length < 2 ^ 32) :
    (completeWithString d s).olen.toNat = d.length ∧
    (completeWithString d s).obuf.readBytes 0 d.length = d ∧
    (∀ i, d.length ≤ i → (completeWithString d s).obuf.read i = 0) ∧
    (∀ i, i < d.length → (completeWithString d s).obuf.read i = byteAt d i) := by
  refine ⟨by simp; omega, Memory.readBytes_writeBytes Memory.wf_nil 0 d, ?_, ?_⟩ <;> intro i hi <;>
    simp only [completeWithString_obuf, Memory.cleared_eq] <;> rw [Memory.read_writeBytes Memory.wf_nil]
  · rw [if_neg (by omega)]; rfl
  · rw [if_pos (by omega)]; rfl

theorem regAt_of_unmapped {off : Nat} (h : off ∉ [0x00, 0x04, 0x08, 0x0C, 0x10, 0x14, 0x18]) :
    regAt off = none := by
  simp at h
  simp [regAt, h]

/-- Everything a host action that is no command can do. -/
theorem performAction_cases (s : State) (a : HostAction) (h0 : ∀ w, a ≠ .regWrite 0x00 w) :
    (a.wf s.config = false ∧ ∃ r, performAction a s = .refused r) ∨
    (a.wf s.config = true ∧
      ((∃ x, performAction a s = .next { s with answer := x }) ∨
      (∃ v, a = .regWrite 0x08 v ∧ performAction a s = .next { s with lenA := v }) ∨
      (∃ v, a = .regWrite 0x0C v ∧ performAction a s = .next { s with lenB := v }) ∨
      (∃ i v, i < s.config.maxLen ∧ a = .bufWrite .bufA i v ∧
        performAction a s = .next { s with ibufA := s.ibufA.write i v }) ∨
      (∃ i v, i < s.config.maxLen ∧ a = .bufWrite .bufB i v ∧
        performAction a s = .next { s with ibufB := s.ibufB.write i v }) ∨
      (a = .reset ∧
        performAction a s = .next { State.reset with config := s.config, pending := s.pending }))) := by
  cases a with
  | regRead off =>
    by_cases h : off ∈ [0x00, 0x04, 0x08, 0x0C, 0x10, 0x14, 0x18]
    · refine .inr ⟨by simpa [HostAction.wf] using h, .inl ?_⟩
      simp only [List.mem_cons, List.not_mem_nil, or_false] at h
      rcases h with rfl | rfl | rfl | rfl | rfl | rfl | rfl <;> exact ⟨_, rfl⟩
    · refine .inl ⟨by simpa [HostAction.wf] using h, ?_⟩
      simp [performAction, regReadAction, regAt_of_unmapped h]
  | regWrite off v =>
    by_cases h : off ∈ [0x00, 0x04, 0x08, 0x0C, 0x10, 0x14, 0x18]
    · refine .inr ⟨by simpa [HostAction.wf] using h, ?_⟩
      simp only [List.mem_cons, List.not_mem_nil, or_false] at h
      rcases h with rfl | rfl | rfl | rfl | rfl | rfl | rfl
      · exact absurd rfl (h0 v)
      · exact .inl ⟨s.answer, rfl⟩
      · exact .inr (.inl ⟨v, rfl, rfl⟩)
      · exact .inr (.inr (.inl ⟨v, rfl, rfl⟩))
      · exact .inl ⟨s.answer, rfl⟩
      · exact .inl ⟨s.answer, rfl⟩
      · exact .inl ⟨s.answer, rfl⟩
    · refine .inl ⟨by simpa [HostAction.wf] using h, ?_⟩
      simp [performAction, regWriteAction, regAt_of_unmapped h]
  | bufRead b i =>
    by_cases h : i < bufferSize s.config b
    · exact .inr ⟨by simpa [HostAction.wf] using h, .inl ⟨_, by simp [performAction, bufReadAction, h]; rfl⟩⟩
    · exact .inl ⟨by simpa [HostAction.wf] using h, by simp [performAction, bufReadAction, h]⟩
  | bufWrite b i v =>
    by_cases h : i < bufferSize s.config b
    · refine .inr ⟨by simpa [HostAction.wf] using h, ?_⟩
      cases b with
      | bufA => exact .inr (.inr (.inr (.inl
          ⟨i, v, h, rfl, by simp [performAction, bufWriteAction, h, writeBuffer]⟩)))
      | bufB => exact .inr (.inr (.inr (.inr (.inl
          ⟨i, v, h, rfl, by simp [performAction, bufWriteAction, h, writeBuffer]⟩))))
      | bufO => exact .inl ⟨s.answer, by simp [performAction, bufWriteAction, h, writeBuffer]⟩
    · exact .inl ⟨by simpa [HostAction.wf] using h, by simp [performAction, bufWriteAction, h]⟩
  | reset => exact .inr ⟨rfl, by simp [performAction, resetAction]⟩
  | otherWidth r n off => exact .inl ⟨rfl, _, rfl⟩

/-- The comparator's loop computes the accumulator of `tseq` on the bytes it reads. -/
theorem cmpLoop_acc (a b : Memory) (k i : Nat) (acc : Byte) :
    (cmpLoop a b k i acc).1 = tseqAcc acc (a.readBytes i k) (b.readBytes i k) := by
  induction k generalizing i acc with
  | zero => rfl
  | succ k ih => simp [cmpLoop, Memory.readBytes, tseqAcc, ih]

/-- The comparator's bit is `tseq` of the two operands. -/
theorem cmpRun_bit (s : State) : (cmpRun s).1 = tseq (operandA s) (operandB s) := by
  simp only [cmpRun, tseq, length_operandA, length_operandB]
  by_cases h : s.lenA = s.lenB
  · simp [h, cmpLoop_acc, operandA, operandB]
  · have : s.lenA.toNat ≠ s.lenB.toNat := fun h' => h (BitVec.eq_of_toNat_eq h')
    simp [h, this]

end Sys2Proof.Machine
end

