-- ==== Sys2Proof/Tests/Slice0.lean ====
section
/-!
SUPPORT. Sys2Proof/Tests/Slice0.lean: tests whose expected results are the spec's (95_test_vectors.md unless a rule is
named), the smoke tests of WellFormed, and a witness for the hypotheses of every statement.
-/

namespace Sys2Proof.Tests

open Sys2Proof.Machine

/-! ## Helpers -/

/-- A state with operand A loaded (`LOADA` of R40). -/
def withA (bs : List Byte) (s : State) : State :=
  { s with ibufA := Memory.writeBytes [] 0 bs, lenA := BitVec.ofNat 32 bs.length }

/-- A state with operand B loaded (`LOADB` of R40). -/
def withB (bs : List Byte) (s : State) : State :=
  { s with ibufB := Memory.writeBytes [] 0 bs, lenB := BitVec.ofNat 32 bs.length }

/-- The next state, if there is one. -/
def after : Host.Outcome State Fault Refusal → Option State
  | .next t => some t
  | _ => none

/-- The refusal, if it is one. -/
def refusalOf : Host.Outcome State Fault Refusal → Option Refusal
  | .refused r => some r
  | _ => none

/-- What a host sees of the last command: `STATUS`, `OLEN`, the result string, `RES`, `OFF`. -/
def shown (o : Host.Outcome State Fault Refusal) : Option (Word × Nat × List Byte × Word × Word) :=
  (after o).map fun t =>
    (readReg t .status, t.olen.toNat, t.obuf.readBytes 0 t.olen.toNat, readReg t .res, readReg t .off)

/-- The command word `w` as the host's next action. -/
def command (w : Word) (s : State) : Host.Outcome State Fault Refusal := step (s.issue (.regWrite 0x00 w))

theorem next_of_after {o : Host.Outcome State Fault Refusal} {t : State} (h : after o = some t) : o = .next t := by
  cases o <;> simp_all [after]

/-! ## Decoding: the words of spec/opcode_table.json written out bit by bit (R34, R35, R36) -/

theorem test_decode_enc : decode 0b00000000000000000000000000000001 = .ok .enc := by decide
theorem test_decode_dec : decode 0b00000000000000000000000000000010 = .ok .dec := by decide
theorem test_decode_trunc : decode 0b00000000000000000000000000000011 = .ok .trunc := by decide
theorem test_decode_cmp : decode 0b00000000000000000000000000000100 = .ok .cmp := by decide
theorem test_decode_zero : decode 0x00000000 = .error .unassignedOp := by decide
theorem test_decode_five : decode 0x00000005 = .error .unassignedOp := by decide
theorem test_decode_fifteen : decode 0x0000000F = .error .unassignedOp := by decide
theorem test_decode_reserved_low : decode 0x00000011 = .error .reservedBits := by decide
theorem test_decode_reserved_top : decode 0x80000001 = .error .reservedBits := by decide
theorem test_decode_all_ones : decode 0xFFFFFFFF = .error .reservedBits := by decide
theorem test_rows_do_not_overlap :
    opcodeMap.Pairwise (fun r r' => r.matchWord &&& (r.mask &&& r'.mask) ≠ r'.matchWord &&& (r.mask &&& r'.mask)) := by
  decide
theorem test_table_word_trunc : decodeTableWord 32 3 = some .trunc := by decide
theorem test_table_word_illegal : decodeTableWord 32 0x12 = none := by decide

/-! ## WellFormed: an ill-formed term for each check -/

theorem smoke_config_too_small : Config.wf { maxLen := 19 } = false := by decide
theorem smoke_config_smallest : Config.wf { maxLen := 20 } = true := by decide
theorem smoke_config_largest : Config.wf { maxLen := 2 ^ 31 } = true := by decide
theorem smoke_config_too_large : Config.wf { maxLen := 2 ^ 31 + 1 } = false := by decide
theorem smoke_word_zero : commandWordWf 0 = false := by decide
theorem smoke_word_five : commandWordWf 5 = false := by decide
theorem smoke_word_reserved : commandWordWf 0x11 = false := by decide
theorem smoke_read_misaligned : (HostAction.regRead 0x02).wf Config.standard = false := by decide
theorem smoke_read_unmapped : (HostAction.regRead 0x1C).wf Config.standard = false := by decide
theorem smoke_write_misaligned : (HostAction.regWrite 0x09 0).wf Config.standard = false := by decide
theorem smoke_write_unmapped : (HostAction.regWrite 0x1C 0).wf Config.standard = false := by decide
theorem smoke_bufA_index : (HostAction.bufRead .bufA 256).wf Config.standard = false := by decide
theorem smoke_bufO_index : (HostAction.bufRead .bufO 416).wf Config.standard = false := by decide
theorem smoke_bufO_last : (HostAction.bufRead .bufO 415).wf Config.standard = true := by decide
theorem smoke_bufB_write_index : (HostAction.bufWrite .bufB 256 0).wf Config.standard = false := by decide
theorem smoke_other_width : (HostAction.otherWidth .reg 2 0x00).wf Config.standard = false := by decide

/-! ## ENC (section 2.1) -/

/-- E3 of section 2.1, from a state that shows the result of an earlier command: `"fo"` is `"MZXQ===="`. -/
theorem test_enc_fo :
    shown (command 1 (withA [0x66, 0x6F] { State.reset with res := 7, off := 3, obuf := [(9, 1)] })) =
      some (0x01, 8, [0x4D, 0x5A, 0x58, 0x51, 0x3D, 0x3D, 0x3D, 0x3D], 0, 0) := by decide
/-- E17: every symbol value once, in order. -/
theorem test_encode_alphabet :
    b32enc [0x00, 0x44, 0x32, 0x14, 0xC7, 0x42, 0x54, 0xB6, 0x35, 0xCF, 0x84, 0x65, 0x3A, 0x56, 0xD7, 0xC6, 0x75, 0xBE,
      0x77, 0xDF] =
    [0x41, 0x42, 0x43, 0x44, 0x45, 0x46, 0x47, 0x48, 0x49, 0x4A, 0x4B, 0x4C, 0x4D, 0x4E, 0x4F, 0x50,
      0x51, 0x52, 0x53, 0x54, 0x55, 0x56, 0x57, 0x58, 0x59, 0x5A, 0x32, 0x33, 0x34, 0x35, 0x36, 0x37] := by
  decide +kernel
/-- E16, by groups (R44). -/
theorem test_encode_groups :
    b32encGroups [0x00, 0x01, 0x02, 0x03, 0x04, 0xFF] =
      [0x41, 0x41, 0x41, 0x51, 0x45, 0x41, 0x59, 0x45, 0x37, 0x34, 0x3D, 0x3D, 0x3D, 0x3D, 0x3D, 0x3D] := by decide
/-- P4: `LEN_A = 257`. -/
theorem test_enc_too_long :
    shown (command 1 { State.reset with lenA := 257, olen := 5, res := 5 }) = some (0x31, 0, [], 0, 0) := by decide

/-! ## DEC (section 2.2) -/

/-- P3: `"MZ======"` leaves trailing bits `01`. -/
theorem test_dec_trailing_bits :
    shown (command 2 (withA [0x4D, 0x5A, 0x3D, 0x3D, 0x3D, 0x3D, 0x3D, 0x3D] State.reset)) =
      some (0x11, 0, [], 0, 0) := by decide
/-- X25: `"MY=A===="`, an internal `=`. -/
theorem test_decode_internal_pad :
    b32dec [0x4D, 0x59, 0x3D, 0x41, 0x3D, 0x3D, 0x3D, 0x3D] = .error .invalidAlphabet := by decide
/-- X28: `"my====="`, lower case and a run of 5: the run is judged first. -/
theorem test_decode_run_first :
    b32dec [0x6D, 0x79, 0x3D, 0x3D, 0x3D, 0x3D, 0x3D] = .error .invalidPadding := by decide
/-- X23: `"mz======"`: the alphabet comes before the trailing bits. -/
theorem test_decode_alphabet_before_bits :
    b32dec [0x6D, 0x7A, 0x3D, 0x3D, 0x3D, 0x3D, 0x3D, 0x3D] = .error .invalidAlphabet := by decide
/-- D35, D42, X6: padding is not matched against the symbols; a run of 8 fails. -/
theorem test_decode_padding_only :
    b32dec [0x41, 0x41, 0x41, 0x3D] = .ok [0x00] ∧ b32dec (List.replicate 6 0x3D) = .ok [] ∧
      b32dec (List.replicate 8 0x3D) = .error .invalidPadding := by decide
/-- B2: the bad byte at index 8 is beyond `LEN_A`. -/
theorem test_dec_stale_byte :
    shown (command 2 { withA [0x4D, 0x59, 0x3D, 0x3D, 0x3D, 0x3D, 0x3D, 0x3D, 0x21] State.reset with lenA := 8 }) =
      some (0x01, 1, [0x66], 0, 0) := by decide
/-- R51's table, the rows of 3 and of 6 symbols: `"AAA"` is `00`, `"AAB"` and `"AAAAAB"` leave a bit. -/
theorem test_decode_groups :
    bitsToBytesGroups [0, 0, 0] = .ok [0x00] ∧ bitsToBytesGroups [0, 0, 1] = .error .invalidPadding ∧
      bitsToBytesGroups [0, 0, 0, 0, 0, 1] = .error .invalidPadding := by decide

/-! ## TRUNC (section 2.3) -/

/-- H0: the mask clears bit 31. -/
theorem test_trunc_mask :
    shown (command 3 (withA [0xCC, 0x93, 0xCF, 0x18, 0x50, 0x8D, 0x94, 0x93, 0x4C, 0x64, 0xB6, 0x5D, 0x8B, 0xA7, 0x66,
      0x7F, 0xB7, 0xCD, 0xE4, 0xB0] State.reset)) = some (0x01, 0, [], 0x4C93CF18, 0) := by decide
/-- H13: `OFF = 15`, the window is bytes 15 to 18. -/
theorem test_trunc_last_window :
    shown (command 3 (withA [0x25, 0xA3, 0x26, 0xD3, 0x1F, 0xC3, 0x66, 0x24, 0x4C, 0xAD, 0x05, 0x49, 0x76, 0x02, 0x0C,
      0x7B, 0x56, 0xB1, 0x3D, 0x5F] State.reset)) = some (0x01, 0, [], 0x7B56B13D, 15) := by decide

/-! ## CMP (section 2.4) -/

/-- Q9: `01 02` against `02 01`: the XORs are `03 03`. -/
theorem test_cmp_order :
    shown (command 4 (withA [1, 2] (withB [2, 1] State.reset))) = some (0x01, 0, [], 0, 0) := by decide
/-- Q13: `LEN_B = 257` is an error before the lengths are compared. -/
theorem test_cmp_len_b : shown (command 4 { State.reset with lenA := 2, lenB := 257 }) = some (0x31, 0, [], 0, 0) := by
  decide
/-- R59: two pairs, each read, XORed and ORed in order, then one test, whatever the bytes. -/
theorem test_cmp_events :
    cmpEvents (withA [9, 1] (withB [8, 1] State.reset)) =
      [.readA 0, .readB 0, .xorStep, .orStep, .readA 1, .readB 1, .xorStep, .orStep, .testAcc] ∧
    cmpEvents (withA [9, 1] (withB [8] State.reset)) = [] := by decide

/-! ## The wrapper (section 2.5) -/

/-- W1: ENC as the first action after reset. -/
theorem test_first_enc : shown (step (State.reset.withFetchWord 32 1)) = some (0x01, 0, [], 0, 0) := by decide
/-- W2: DEC. -/
theorem test_first_dec : shown (step (State.reset.withFetchWord 32 2)) = some (0x01, 0, [], 0, 0) := by decide
/-- W3: TRUNC, `LEN_A = 0` is not 20. -/
theorem test_first_trunc : shown (step (State.reset.withFetchWord 32 3)) = some (0x31, 0, [], 0, 0) := by decide
/-- W4: CMP, two empty operands are equal. -/
theorem test_first_cmp : shown (step (State.reset.withFetchWord 32 4)) = some (0x01, 0, [], 1, 0) := by decide
/-- W5, W8: illegal words clear the earlier result. -/
theorem test_illegal_words :
    shown (command 0 { State.reset with olen := 8, obuf := [(0, 0x4D)] }) = some (0x41, 0, [], 0, 0) ∧
      shown (command 0x11 { State.reset with lenA := 257 }) = some (0x41, 0, [], 0, 0) := by decide
/-- W15, W18, W20: `CMD` reads 0; `LEN_A` stores any word; `STATUS` keeps `DONE` when read. -/
theorem test_register_reads :
    (after (step (State.reset.issue (.regRead 0x00)))).map (·.answer) = some (some (.word 0)) ∧
      (after (step (State.reset.issue (.regWrite 0x08 0xFFFFFFFF)))).map (·.lenA) = some 0xFFFFFFFF ∧
      after (step (State.issue { State.reset with done := true, err := .invalidAlphabet } (.regRead 0x04))) =
        some { State.reset with done := true, err := .invalidAlphabet, answer := some (.word 0x21) } := by decide
/-- W16, W17: writes to read-only places are ignored. -/
theorem test_ignored_writes :
    after (step (State.reset.issue (.regWrite 0x14 0xFFFFFFFF))) = some State.reset ∧
      after (step (State.reset.issue (.bufWrite .bufO 0 0xAA))) = some State.reset := by decide
/-- W19: what the model refuses. -/
theorem test_refusals :
    refusalOf (step (State.reset.issue (.regRead 0x1C))) = some .unmappedRegister ∧
      refusalOf (step (State.reset.issue (.regRead 0x02))) = some .misalignedRegister ∧
      refusalOf (step (State.reset.issue (.bufRead .bufA 256))) = some .bufferIndex ∧
      refusalOf (step (State.reset.issue (.bufRead .bufO 416))) = some .bufferIndex ∧
      refusalOf (step (State.reset.issue (.otherWidth (.buf .bufA) 4 0))) = some .accessWidth := by decide
/-- W21, W22: a buffer write disturbs no result and reads back; reset clears. -/
theorem test_buffer_write_and_reset :
    (after (step (State.issue { State.reset with olen := 8, obuf := [(0, 0x4D)] } (.bufWrite .bufA 3 7)))).map
        (fun t => (t.obuf.read 0, t.ibufA)) = some (0x4D, [(3, 7)]) ∧
      after (step (State.issue { State.reset with olen := 8, obuf := [(0, 0x4D)], lenA := 4 } .reset)) =
        some State.reset := by decide
/-- A write of 0 removes the cell, so that equal buffers are equal data. -/
theorem test_canonical_write : Memory.write [(1, 5), (3, 7)] 3 0 = [(1, 5)] := by decide
/-- With no host action nothing changes (R66). -/
theorem test_idle : after (step State.reset) = some State.reset := by decide

/-! ## Witnesses: states and operands that meet the hypotheses of each statement, at the ends of their ranges -/

/-- `"fo"` loaded as operand A: a legal state. -/
def loaded : State := withA [0x66, 0x6F] State.reset

theorem witness_reset_inv : State.reset.Inv := by
  constructor <;> decide

theorem witness_loaded_inv : loaded.Inv := by
  constructor <;> decide

/-- The same state with ENC as the host's next action. -/
def issued : State := loaded.issue (.regWrite 0x00 1)

theorem witness_issued_inv : issued.Inv := by
  constructor <;> decide

theorem witness_IllegalWords : (5 : Word) ≠ 1 ∧ (5 : Word) ≠ 2 ∧ (5 : Word) ≠ 3 ∧ (5 : Word) ≠ 4 ∧
    rsvField 0x80000001 ≠ 0 := by decide

theorem witness_StepRuns : (State.reset.issue (.regWrite 0x00 3)).pending = .regWrite 0x00 3 :: [] ∧
    decode 3 = .ok .trunc := by decide

theorem witness_NothingHappens : State.reset.pending = [] := by decide

theorem witness_FirstCommand : (State.reset = { State.reset with config := Config.standard }) ∧
    Config.standard.wf = true := by decide

/-- `LEN_A` 2, at `MAXLEN`, and one above it. -/
theorem witness_Enc : (loaded.config.wf = true ∧ loaded.lenA.toNat ≤ loaded.config.maxLen) ∧
    ({ loaded with lenA := 256 }.config.wf = true ∧ { loaded with lenA := 256 }.lenA.toNat = loaded.config.maxLen) ∧
    loaded.config.maxLen < { loaded with lenA := 257 }.lenA.toNat := by decide

theorem witness_Dec_ok : (withA [0x4D, 0x59] State.reset).config.wf = true ∧
    (withA [0x4D, 0x59] State.reset).lenA.toNat ≤ (withA [0x4D, 0x59] State.reset).config.maxLen ∧
    b32dec ((withA [0x4D, 0x59] State.reset).ibufA.readBytes 0 (withA [0x4D, 0x59] State.reset).lenA.toNat) =
      .ok [0x66] := by decide
theorem witness_Dec_padding : (withA [0x3D, 0x3D] State.reset).lenA.toNat ≤ State.reset.config.maxLen ∧
    b32dec ((withA [0x3D, 0x3D] State.reset).ibufA.readBytes 0 (withA [0x3D, 0x3D] State.reset).lenA.toNat) =
      .error .invalidPadding := by decide
theorem witness_Dec_alphabet : (withA [0x6D] State.reset).lenA.toNat ≤ State.reset.config.maxLen ∧
    b32dec ((withA [0x6D] State.reset).ibufA.readBytes 0 (withA [0x6D] State.reset).lenA.toNat) =
      .error .invalidAlphabet := by decide

theorem witness_Trunc : (withA (List.replicate 20 0xFF) State.reset).lenA.toNat = 20 ∧
    { loaded with lenA := 19 }.lenA.toNat ≠ 20 ∧ { loaded with lenA := 21 }.lenA.toNat ≠ 20 := by decide

/-- Two equal strings of one byte; two empty ones. -/
theorem witness_Cmp_equal :
    ((withA [1] (withB [1] State.reset)).lenA.toNat ≤ State.reset.config.maxLen ∧
      (withA [1] (withB [1] State.reset)).lenB.toNat ≤ State.reset.config.maxLen ∧
      (withA [1] (withB [1] State.reset)).lenA = (withA [1] (withB [1] State.reset)).lenB ∧
      ∀ i, i < 1 → (withA [1] (withB [1] State.reset)).ibufA.read i = (withA [1] (withB [1] State.reset)).ibufB.read i) ∧
    State.reset.lenA = State.reset.lenB ∧ State.reset.lenA.toNat ≤ State.reset.config.maxLen := by decide
/-- Unequal lengths; a differing byte at the last index. -/
theorem witness_Cmp_unequal :
    (withA [1] (withB [1, 2] State.reset)).lenA ≠ (withA [1] (withB [1, 2] State.reset)).lenB ∧
    (withA [1, 2] (withB [1, 3] State.reset)).lenA = (withA [1, 2] (withB [1, 3] State.reset)).lenB ∧
    1 < (withA [1, 2] (withB [1, 3] State.reset)).lenA.toNat ∧
    (withA [1, 2] (withB [1, 3] State.reset)).ibufA.read 1 ≠ (withA [1, 2] (withB [1, 3] State.reset)).ibufB.read 1 := by
  decide
theorem witness_Cmp_length : loaded.config.maxLen < { loaded with lenB := 257 }.lenB.toNat ∧
    ¬ loaded.config.maxLen < { loaded with lenB := 256 }.lenB.toNat := by decide

theorem witness_CommandsLeave : ∃ t, exec .enc loaded = .next t ∧ step (loaded.issue (.regWrite 0x00 1)) = .next t :=
  ⟨_, rfl, rfl⟩

theorem witness_ResultsDepend : loaded.config = { loaded with lenB := 9, olen := 3 }.config ∧
    sameOperands .enc loaded { loaded with lenB := 9, olen := 3 } ∧
    sameOperands .dec loaded { loaded with lenB := 9, olen := 3 } ∧
    sameOperands .trunc loaded { loaded with ibufA := [] } ∧
    sameOperands .cmp loaded { loaded with ibufA := [], ibufB := [(0, 1)] } := by
  refine ⟨rfl, ⟨rfl, fun _ _ _ => rfl⟩, ⟨rfl, fun _ _ _ => rfl⟩, ⟨rfl, ?_⟩, ⟨rfl, rfl, ?_⟩⟩
  · intro h; exact absurd h (by decide)
  · intro h; exact absurd h (by decide)

/-- One operand for each clause of the priority of R63. -/
theorem witness_ErrorCodes :
    (∀ i, decode 0x12 ≠ .ok i) ∧
    (decode 3 = .ok .trunc ∧ lengthError .trunc loaded) ∧
    (decode 1 = .ok .enc ∧ ¬ lengthError .enc loaded) ∧
    (decode 2 = .ok .dec ∧ ¬ lengthError .dec (withA [0x3D, 0x3D] State.reset)) ∧
    padRun (operandA (withA [0x3D, 0x3D] State.reset)) ∉ [0, 1, 3, 4, 6] ∧
    (∃ c ∈ body (operandA (withA [0x6D] State.reset)), val c = none) ∧
    (∀ c ∈ body (operandA (withA [0x42] State.reset)), val c ≠ none) ∧
    (∀ c ∈ body (operandA (withA [0x41] State.reset)), val c ≠ none) := by
  refine ⟨fun i => by cases i <;> decide, ⟨by decide, ?_⟩, ⟨by decide, ?_⟩, ⟨by decide, ?_⟩, by decide, by decide,
    by decide, by decide⟩ <;>
    simp only [lengthError] <;> decide
theorem witness_trailingBitSet : trailingBitSet [0x42] := ⟨[1], by decide, by decide⟩
theorem witness_no_trailingBitSet : ¬ trailingBitSet [0x41] := by
  rintro ⟨vs, hv, ht⟩
  have hb : [0x41].map val = [0].map (some (α := SymbolValue)) := by decide
  rw [show body [0x41] = [0x41] by decide, hb] at hv
  have : vs = [0] := (List.map_injective_iff.2 (Option.some_injective _) hv).symm
  subst this
  revert ht
  decide

theorem witness_ErrorsLeave : ∃ t, step (State.reset.issue (.regWrite 0x00 3)) = .next t ∧ t.err ≠ .noError :=
  ⟨_, rfl, by decide⟩

theorem witness_Reads : 255 < loaded.config.maxLen ∧ 415 < ocap loaded.config ∧
    loaded.olen.toNat ≤ 0 := by decide

theorem witness_Status_other_action : (∀ w, HostAction.regRead 0x04 ≠ .regWrite 0x00 w) ∧
    HostAction.regRead 0x04 ≠ .reset ∧ (after (step (loaded.issue (.regRead 0x04)))).isSome = true := by
  refine ⟨fun w => ?_, by decide, by decide⟩
  simp

theorem witness_LenA : { loaded with lenA := 257 }.config.wf = true ∧
    { loaded with lenA := 257 }.config.maxLen < { loaded with lenA := 257 }.lenA.toNat ∧
    (after (step (loaded.issue (.regWrite 0x08 9)))).isSome = true := by decide

theorem witness_LenB : Instr.trunc ≠ .cmp ∧ (after (step (loaded.issue (.regWrite 0x0C 9)))).isSome = true ∧
    loaded.config.maxLen < { loaded with lenB := 257 }.lenB.toNat := by decide

theorem witness_Writes : decode 4 = .ok .cmp ∧ loaded.ibufA.wf ∧ loaded.ibufB.wf ∧ 255 < loaded.config.maxLen ∧
    415 < ocap loaded.config := by decide

theorem witness_Operands : ∃ t, step (loaded.issue (.bufWrite .bufA 255 1)) = .next t ∧
    HostAction.bufWrite .bufA 255 1 ≠ .reset ∧ (∀ v, HostAction.bufWrite .bufA 255 1 ≠ .bufWrite .bufA 254 v) := by
  refine ⟨_, rfl, by decide, fun v => ?_⟩
  simp

theorem witness_ResultsLast : (HostAction.regWrite 0x0C 3).endsResults = false ∧
    (after (step (loaded.issue (.regWrite 0x0C 3)))).isSome = true := by decide

theorem witness_Capacity : loaded.config.wf = true ∧ Config.standard.maxLen < (257#32).toNat ∧
    Config.standard.maxLen ≤ 256 := by decide

theorem witness_EveryStep : issued.Inv ∧ ∃ t, step issued = .next t :=
  ⟨witness_issued_inv, _, rfl⟩

theorem witness_LegalRuns : issued.Inv ∧ issued.hostKeepsRules :=
  ⟨witness_issued_inv, by decide⟩

/-- At `MAXLEN = 256` the longest operand that makes the round trip has 160 bytes (R76). -/
theorem witness_RoundTrip : loaded.Inv ∧ 8 * ((loaded.lenA.toNat + 4) / 5) ≤ loaded.config.maxLen ∧
    8 * ((160 + 4) / 5) ≤ 256 ∧ ¬ 8 * ((161 + 4) / 5) ≤ 256 ∧
    b32dec [0x4D, 0x59, 0x3D, 0x3D, 0x3D, 0x3D, 0x3D, 0x3D] = .ok [0x66] ∧
    b32enc [0x66] = [0x4D, 0x59, 0x3D, 0x3D, 0x3D, 0x3D, 0x3D, 0x3D] :=
  ⟨witness_loaded_inv, by decide, by decide, by decide, by decide, by decide⟩

theorem witness_EncodedLengths : ([] : List Byte).length ≤ Config.standard.maxLen ∧
    (List.replicate 20 (0 : Byte)).length = (Config.mk 20).maxLen := by decide

theorem witness_PaddingRun : padRun [0x41, 0x3D, 0x3D] ∉ [0, 1, 3, 4, 6] ∧ padRun [0x41, 0x3D] < [0x41, (0x3D : Byte)].length ∧
    padRun [0x41, 0x3D] ∈ [0, 1, 3, 4, 6] := by decide

theorem witness_SymbolBits : padRun [0x41, 0x49] ∈ [0, 1, 3, 4, 6] ∧
    ([0x41, 0x49].take ([0x41, (0x49 : Byte)].length - padRun [0x41, 0x49])).map val = [0, 8].map some ∧
    (∀ b ∈ (([0, 8] : List SymbolValue).flatMap bitString).drop (8 * (5 * 2 / 8)), b = false) ∧
    (∃ b ∈ (([0, 1] : List SymbolValue).flatMap bitString).drop (8 * (5 * 2 / 8)), b = true) := by decide

theorem witness_EmptyText : State.reset.lenA = 0 := by decide

theorem witness_PaddingNotMatched : bitsToBytes [0, 0, 0] = .ok [0x00] ∧ 6 ∈ [0, 1, 3, 4, 6] := by decide

theorem witness_Truncation : (List.replicate 20 (0xFF : Byte)).length = 20 ∧
    (dt (List.replicate 20 0xFF)).1.toNat = 15 := by decide

/-- Digests that differ where R57 says it does not matter. -/
theorem witness_TruncationRanges :
    (∀ i, i < 19 → byteAt (List.replicate 20 0x05) i = byteAt (List.replicate 19 0x05 ++ [0xF5]) i) ∧
    byteAt (List.replicate 20 0x05) 19 &&& 0x0F = byteAt (List.replicate 19 0x05 ++ [0xF5]) 19 &&& 0x0F ∧
    (∀ i, i < 20 → i ≠ 0 → byteAt (List.replicate 20 0x00) i = byteAt (0x80 :: List.replicate 19 0x00) i) ∧
    byteAt (List.replicate 20 0x00) 0 &&& 0x7F = byteAt (0x80 :: List.replicate 19 0x00) 0 &&& 0x7F := by decide

theorem witness_ConstantTime : loaded.lenA ≠ loaded.lenB ∧ State.reset.lenA = State.reset.lenB ∧
    State.reset.lenA.toNat ≤ State.reset.config.maxLen := by decide

end Sys2Proof.Tests
end

/-!
# Scope (spec 00): completion, the operands, the invariant, the capacities

SUPPORT. Proofs of the statements O6, O16, O30, O32 and O33.
-/

namespace Sys2Proof.Machine

/-! ## The capacities (R5) -/

theorem config_wf_iff (c : Config) : c.wf = true ↔ 20 ≤ c.maxLen ∧ c.maxLen ≤ 2 ^ 31 := by
  simp [Config.wf]

/-- `OCAP` is eight times the least number of groups of five that hold `MAXLEN` bytes. -/
theorem ocap_eq_groups (c : Config) : ∃ g, ocap c = 8 * g ∧ c.maxLen ≤ 5 * g ∧ 5 * g < c.maxLen + 5 :=
  ⟨(c.maxLen + 4) / 5, rfl, by omega, by omega⟩

theorem ocap_le {c : Config} (h : c.wf = true) : ocap c ≤ 3435973840 := by
  obtain ⟨-, hmax⟩ := (config_wf_iff c).1 h
  simp only [ocap]
  omega

theorem decodedLength_le_ocap (c : Config) : 5 * c.maxLen / 8 ≤ ocap c := by
  simp only [ocap]
  omega

/-- Settles O30: the bounds follow from `OCAP = 8 * ceil(MAXLEN / 5)`. -/
theorem capacityBounds : Obligations.CapacityBounds :=
  ⟨rfl, by decide, config_wf_iff, ocap_eq_groups, fun c h =>
    ⟨ocap_le h, lt_of_le_of_lt (ocap_le h) (by norm_num), decodedLength_le_ocap c⟩⟩

/-! ## The meaning of each command, by its operands -/

theorem exec_of_lengthError {i : Instr} {s : State} (h : lengthError i s) :
    exec i s = .next (raiseError .operandLength s) := by
  cases i <;> simp only [lengthError] at h
  case enc => simp [exec, execEnc, lenATooLong, h]
  case dec => simp [exec, execDec, lenATooLong, h]
  case trunc => simp [exec, execTrunc, digestLength, h]
  case cmp => rcases h with h | h <;> simp [exec, execCmp, lenATooLong, lenBTooLong, h]

theorem exec_enc_of_fits {s : State} (h : ¬ lengthError .enc s) :
    exec .enc s = .next (completeWithString (b32enc (operandA s)) s) :=
  ((execEnc_cases s).resolve_left fun hl => h hl.1).2

theorem exec_dec_of_ok {s : State} {d : List Byte} (h : ¬ lengthError .dec s) (hd : b32dec (operandA s) = .ok d) :
    exec .dec s = .next (completeWithString d s) := by
  simp only [lengthError] at h
  simp [exec, execDec, lenATooLong, h, hd]

theorem exec_dec_of_error {s : State} {e : DecodeError} (h : ¬ lengthError .dec s)
    (he : b32dec (operandA s) = .error e) : exec .dec s = .next (raiseError e.toErrorCode s) := by
  simp only [lengthError] at h
  simp [exec, execDec, lenATooLong, h, he]

theorem exec_trunc_of_fits {s : State} (h : ¬ lengthError .trunc s) :
    exec .trunc s = .next (completeWithScalar (dt (digestOperand s)).1 (dt (digestOperand s)).2 s) :=
  ((execTrunc_cases s).resolve_left fun hl => h hl.1).2

theorem exec_cmp_of_fits {s : State} (h : ¬ lengthError .cmp s) :
    exec .cmp s = .next (completeWithScalar 0 ((cmpRun s).1.zeroExtend 32) s) :=
  ((execCmp_cases s).resolve_left fun hl => h hl.1).2.2

/-! ## Every command completes (R4) -/

theorem exec_completes (i : Instr) (s : State) : ∃ t, exec i s = .next t ∧ t.done = true := by
  rcases exec_cases i s with ⟨c, -, h⟩ | ⟨d, -, -, h⟩ | ⟨o, v, -, h⟩
  · exact ⟨_, h, raiseError_done c s⟩
  · exact ⟨_, h, completeWithString_done d s⟩
  · exact ⟨_, h, completeWithScalar_done o v s⟩

theorem step_issue_command (s : State) (w : Word) :
    step (s.issue (.regWrite 0x00 w)) = runCommand w { s with answer := none } := rfl

theorem lengthError_answer_iff (i : Instr) (s : State) (x : Option Answer) :
    lengthError i { s with answer := x } ↔ lengthError i s := by
  cases i <;> exact Iff.rfl

/-- Settles O6: an illegal word and an operand outside its domain raise their codes, and every other command is one of
the ends of `exec_cases`. -/
theorem everyCommandCompletes : Obligations.EveryCommandCompletes := by
  intro s w
  rw [step_issue_command]
  rcases runCommand_cases w { s with answer := none } with ⟨i, hi, hrun⟩ | ⟨r, hr, hrun⟩
  · rw [hrun]
    have hdecoded : ¬ ∀ j, decode w ≠ .ok j := fun hno => hno i hi
    by_cases hl : lengthError i s
    · refine ⟨_, exec_of_lengthError ((lengthError_answer_iff i s none).2 hl), rfl, ?_, fun _ _ _ => rfl⟩
      exact fun hno => absurd hno hdecoded
    · obtain ⟨t, ht, hdone⟩ := exec_completes i { s with answer := none }
      refine ⟨t, ht, hdone, fun hno => absurd hno hdecoded, fun j hj hlj => ?_⟩
      obtain rfl : i = j := Except.ok.inj (hi.symm.trans hj)
      exact absurd hlj hl
  · refine ⟨_, hrun, rfl, fun _ => rfl, fun i hi => ?_⟩
    rw [hr] at hi
    cases hi

/-! ## Results are a function of the operands (R2) -/

theorem sameResults_raiseError (c : ErrorCode) (s s' : State) :
    (raiseError c s).sameResults (raiseError c s') :=
  ⟨rfl, rfl, rfl, rfl, rfl, rfl⟩

theorem sameResults_completeWithString (d : List Byte) (s s' : State) :
    (completeWithString d s).sameResults (completeWithString d s') :=
  ⟨rfl, rfl, rfl, rfl, rfl, rfl⟩

theorem sameResults_completeWithScalar (o : BitVec 4) (v : Word) (s s' : State) :
    (completeWithScalar o v s).sameResults (completeWithScalar o v s') :=
  ⟨rfl, rfl, rfl, rfl, rfl, rfl⟩

theorem Memory.readBytes_eq_of_agreeBelow {m m' : Memory} {n : Nat} (h : m.agreeBelow n m') :
    m.readBytes 0 n = m'.readBytes 0 n :=
  Memory.readBytes_congr fun k hk => by simpa using h k hk

theorem operandA_congr {s s' : State} (hlen : s.lenA = s'.lenA) (h : s.ibufA.agreeBelow s.lenA.toNat s'.ibufA) :
    operandA s = operandA s' := by
  simp only [operandA, ← hlen]
  exact Memory.readBytes_eq_of_agreeBelow h

theorem operandB_congr {s s' : State} (hlen : s.lenB = s'.lenB) (h : s.ibufB.agreeBelow s.lenB.toNat s'.ibufB) :
    operandB s = operandB s' := by
  simp only [operandB, ← hlen]
  exact Memory.readBytes_eq_of_agreeBelow h

/-- With unequal lengths the comparator reads no byte (R59 item 1). -/
theorem cmpRun_of_lenA_ne_lenB {s : State} (h : s.lenA ≠ s.lenB) : cmpRun s = (0, []) := by
  simp [cmpRun, h]

theorem cmpRun_bit_congr {s s' : State} (hA : s.lenA = s'.lenA) (hB : s.lenB = s'.lenB)
    (h : s.lenA = s.lenB → operandA s = operandA s' ∧ operandB s = operandB s') :
    (cmpRun s).1 = (cmpRun s').1 := by
  by_cases hne : s.lenA = s.lenB
  · obtain ⟨ha, hb⟩ := h hne
    rw [cmpRun_bit, cmpRun_bit, ha, hb]
  · rw [cmpRun_of_lenA_ne_lenB hne, cmpRun_of_lenA_ne_lenB (by rwa [← hA, ← hB])]

theorem lengthError_congr {i : Instr} {s s' : State} (hc : s.config = s'.config) (h : sameOperands i s s') :
    lengthError i s ↔ lengthError i s' := by
  cases i with
  | enc | dec | trunc =>
    obtain ⟨hA, -⟩ := h
    simp only [lengthError, hc, hA]
  | cmp =>
    obtain ⟨hA, hB, -⟩ := h
    simp only [lengthError, hc, hA, hB]

/-- The operand that ENC and DEC read, when it fits. -/
theorem operandA_eq_of_sameOperands {s s' : State} (h : sameOperands .enc s s') (hl : ¬ lengthError .enc s) :
    operandA s = operandA s' :=
  operandA_congr h.1 (h.2 (Nat.le_of_not_lt hl))

theorem digestOperand_eq_of_sameOperands {s s' : State} (h : sameOperands .trunc s s')
    (hl : ¬ lengthError .trunc s) : digestOperand s = digestOperand s' :=
  Memory.readBytes_eq_of_agreeBelow (h.2 (not_not.1 hl))

theorem cmpRun_bit_eq_of_sameOperands {s s' : State} (h : sameOperands .cmp s s') (hl : ¬ lengthError .cmp s) :
    (cmpRun s).1 = (cmpRun s').1 := by
  obtain ⟨hA, hB, hbytes⟩ := h
  refine cmpRun_bit_congr hA hB fun heq => ?_
  obtain ⟨ha, hb⟩ := hbytes heq (Nat.le_of_not_lt fun hlt => hl (.inl hlt))
  exact ⟨operandA_congr hA ha, operandB_congr hB hb⟩

/-- The hypotheses of O16 are met, with bytes read by TRUNC and by CMP, by states that differ above them. -/
theorem sameOperands_witness :
    sameOperands .trunc { State.reset with lenA := 20, ibufA := [(19, 5)] }
      { State.reset with lenA := 20, lenB := 9, ibufA := [(19, 5), (20, 7)] } ∧
    sameOperands .cmp { State.reset with lenA := 1, lenB := 1, ibufA := [(0, 5)] }
      { State.reset with lenA := 1, lenB := 1, ibufA := [(0, 5), (1, 7)], ibufB := [(3, 1)] } :=
  ⟨⟨rfl, fun _ => by decide⟩, ⟨rfl, rfl, fun _ _ => by decide⟩⟩

/-- Settles O16: both states have the length error or neither has, and without it the value that the command computes
is the same. -/
theorem resultsDependOnTheOperandsOnly : Obligations.ResultsDependOnTheOperandsOnly := by
  intro i s s' hc h
  by_cases hl : lengthError i s
  · exact ⟨_, _, exec_of_lengthError hl, exec_of_lengthError ((lengthError_congr hc h).1 hl),
      sameResults_raiseError _ s s'⟩
  have hl' : ¬ lengthError i s' := fun hbad => hl ((lengthError_congr hc h).2 hbad)
  cases i with
  | enc =>
    refine ⟨_, _, exec_enc_of_fits hl, exec_enc_of_fits hl', ?_⟩
    rw [operandA_eq_of_sameOperands h hl]
    exact sameResults_completeWithString _ s s'
  | dec =>
    have hop : operandA s = operandA s' := operandA_eq_of_sameOperands h hl
    cases hd : b32dec (operandA s) with
    | ok d =>
      exact ⟨_, _, exec_dec_of_ok hl hd, exec_dec_of_ok hl' (hop ▸ hd), sameResults_completeWithString d s s'⟩
    | error e =>
      exact ⟨_, _, exec_dec_of_error hl hd, exec_dec_of_error hl' (hop ▸ hd), sameResults_raiseError _ s s'⟩
  | trunc =>
    refine ⟨_, _, exec_trunc_of_fits hl, exec_trunc_of_fits hl', ?_⟩
    rw [digestOperand_eq_of_sameOperands h hl]
    exact sameResults_completeWithScalar _ _ s s'
  | cmp =>
    refine ⟨_, _, exec_cmp_of_fits hl, exec_cmp_of_fits hl', ?_⟩
    rw [cmpRun_bit_eq_of_sameOperands h hl]
    exact sameResults_completeWithScalar _ _ s s'

/-! ## The invariant, one rule per update of the state -/

/-- The invariant does not speak of the lengths, the waiting actions or the answer. -/
theorem State.Inv.setInputs {s : State} (hs : s.Inv) (a b : Word) (p : List HostAction) (x : Option Answer) :
    State.Inv { s with lenA := a, lenB := b, pending := p, answer := x } :=
  { hs with }

theorem State.Inv.write_ibufA {s : State} (hs : s.Inv) {i : Nat} (v : Byte) (hi : i < s.config.maxLen) :
    State.Inv { s with ibufA := s.ibufA.write i v } :=
  { hs with
    ibufA_wf := Memory.write_wf hs.ibufA_wf
    ibufA_below := Memory.write_below hs.ibufA_below hi }

theorem State.Inv.write_ibufB {s : State} (hs : s.Inv) {i : Nat} (v : Byte) (hi : i < s.config.maxLen) :
    State.Inv { s with ibufB := s.ibufB.write i v } :=
  { hs with
    ibufB_wf := Memory.write_wf hs.ibufB_wf
    ibufB_below := Memory.write_below hs.ibufB_below hi }

theorem State.Inv.reset_of_config {c : Config} (hc : c.wf = true) (p : List HostAction) :
    State.Inv { State.reset with config := c, pending := p } where
  config_wf := hc
  ibufA_wf := Memory.wf_nil
  ibufA_below := Memory.below_nil _
  ibufB_wf := Memory.wf_nil
  ibufB_below := Memory.below_nil _
  obuf_wf := Memory.wf_nil
  obuf_below := Memory.below_nil _
  olen_le := Nat.zero_le _
  res_le := Nat.zero_le _
  fresh := fun _ => ⟨rfl, rfl, rfl, rfl, rfl⟩
  failed := fun _ => ⟨rfl, rfl, rfl, rfl⟩

theorem State.Inv.raiseError {s : State} (hs : s.Inv) (c : ErrorCode) : (raiseError c s).Inv :=
  { hs with
    obuf_wf := Memory.wf_nil
    obuf_below := Memory.below_nil _
    olen_le := Nat.zero_le _
    res_le := Nat.zero_le _
    fresh := fun hdone => by cases hdone
    failed := fun _ => ⟨rfl, rfl, rfl, rfl⟩ }

theorem State.Inv.completeWithString {s : State} (hs : s.Inv) {d : List Byte} (hd : d.length ≤ ocap s.config) :
    (completeWithString d s).Inv := by
  have hcap : ocap s.config ≤ 3435973840 := ocap_le hs.config_wf
  have holen : (BitVec.ofNat 32 d.length).toNat = d.length := by
    rw [BitVec.toNat_ofNat]
    omega
  exact
    { hs with
      obuf_wf := Memory.writeBytes_wf 0 d Memory.wf_nil
      obuf_below := Memory.writeBytes_below 0 d (Memory.below_nil _) (by simp [holen])
      olen_le := holen.le.trans hd
      res_le := Nat.zero_le _
      fresh := fun hdone => by cases hdone
      failed := fun herr => absurd rfl herr }

theorem State.Inv.completeWithScalar {s : State} (hs : s.Inv) (o : BitVec 4) {v : Word}
    (hv : v.toNat ≤ 0x7FFFFFFF) : (completeWithScalar o v s).Inv :=
  { hs with
    obuf_wf := Memory.wf_nil
    obuf_below := Memory.below_nil _
    olen_le := Nat.zero_le _
    res_le := hv
    fresh := fun hdone => by cases hdone
    failed := fun herr => absurd rfl herr }

/-! ## What a command can leave -/

/-- The result string of ENC or DEC fits `OBUF`. -/
theorem length_resultString_le_ocap {s : State} {d : List Byte}
    (hd : d = b32enc (operandA s) ∨ b32dec (operandA s) = .ok d) (hl : s.lenA.toNat ≤ s.config.maxLen) :
    d.length ≤ ocap s.config := by
  rcases hd with rfl | hd
  · simp only [length_b32enc, length_operandA, ocap]
    omega
  · rw [length_of_b32dec_ok hd, length_operandA]
    have := decodedLength_le_ocap s.config
    omega

theorem dtValue_le (d : List Byte) : (dtValue d).toNat ≤ 0x7FFFFFFF := by
  rw [dtValue, BitVec.toNat_and]
  exact Nat.and_le_right

/-- The scalar of TRUNC or CMP has bit 31 clear. -/
theorem resultScalar_le {s : State} {o : BitVec 4} {v : Word}
    (h : (o, v) = dt (digestOperand s) ∨ (o, v) = (0, (cmpRun s).1.zeroExtend 32)) : v.toNat ≤ 0x7FFFFFFF := by
  rcases h with h | h
  · obtain ⟨-, rfl⟩ := Prod.mk.inj h
    exact dtValue_le _
  · obtain ⟨-, rfl⟩ := Prod.mk.inj h
    have hbit : (cmpRun s).1.toNat < 2 ^ 1 := (cmpRun s).1.isLt
    rw [BitVec.toNat_setWidth_of_le (by decide)]
    omega

/-- A state that a host action may leave, from the legal state `s`: legal, with the same parameter and the same actions
still waiting. -/
structure KeepsBlock (s t : State) : Prop where
  inv : t.Inv
  config : t.config = s.config
  pending : t.pending = s.pending

theorem runCommand_keepsBlock {s : State} (hs : s.Inv) (w : Word) :
    ∃ t, runCommand w s = .next t ∧ KeepsBlock s t := by
  rcases runCommand_ends w s with ⟨c, -, h⟩ | ⟨d, hd, hl, h⟩ | ⟨o, v, hv, h⟩
  · exact ⟨_, h, hs.raiseError c, rfl, rfl⟩
  · exact ⟨_, h, hs.completeWithString (length_resultString_le_ocap hd hl), rfl, rfl⟩
  · exact ⟨_, h, hs.completeWithScalar o (resultScalar_le hv), rfl, rfl⟩

/-- From a legal state a host action is refused, and then it breaks the access rules, or it leaves a legal state. -/
theorem performAction_of_inv {s : State} (hs : s.Inv) (a : HostAction) :
    (a.wf s.config = false ∧ ∃ r, performAction a s = .refused r) ∨
    (∃ t, performAction a s = .next t ∧ KeepsBlock s t) := by
  by_cases hcmd : ∃ w, a = .regWrite 0x00 w
  · obtain ⟨w, rfl⟩ := hcmd
    exact .inr (runCommand_keepsBlock hs w)
  · rcases performAction_cases s a fun w hw => hcmd ⟨w, hw⟩ with hrefused | ⟨-, hnext⟩
    · exact .inl hrefused
    right
    rcases hnext with ⟨x, h⟩ | ⟨v, -, h⟩ | ⟨v, -, h⟩ | ⟨i, v, hi, -, h⟩ | ⟨i, v, hi, -, h⟩ | ⟨-, h⟩
    · exact ⟨_, h, hs.setInputs s.lenA s.lenB s.pending x, rfl, rfl⟩
    · exact ⟨_, h, hs.setInputs v s.lenB s.pending s.answer, rfl, rfl⟩
    · exact ⟨_, h, hs.setInputs s.lenA v s.pending s.answer, rfl, rfl⟩
    · exact ⟨_, h, hs.write_ibufA v hi, rfl, rfl⟩
    · exact ⟨_, h, hs.write_ibufB v hi, rfl, rfl⟩
    · exact ⟨_, h, .reset_of_config hs.config_wf s.pending, rfl, rfl⟩

/-! ## Every step keeps the invariant -/

theorem step_of_no_action {s : State} (h : s.pending = []) : step s = .next s := by
  simp [step, nextAction, h]

/-- The state in which the next action is performed is legal where the waiting one is. -/
theorem State.Inv.takeAction {s : State} (hs : s.Inv) (rest : List HostAction) :
    State.Inv { s with pending := rest, answer := none } :=
  hs.setInputs s.lenA s.lenB rest none

/-- Settles O32, by the cases of the host's next action. -/
theorem everyStepKeepsTheInvariant : Obligations.EveryStepKeepsTheInvariant := by
  intro s t hs hstep
  cases hp : s.pending with
  | nil =>
    rw [step_of_no_action hp] at hstep
    cases hstep
    exact ⟨hs, rfl⟩
  | cons a rest =>
    rw [step_of_pending hp] at hstep
    rcases performAction_of_inv (hs.takeAction rest) a with ⟨-, r, hr⟩ | ⟨u, hu, hkeeps⟩
    · rw [hr] at hstep
      cases hstep
    · rw [hu] at hstep
      cases hstep
      exact ⟨hkeeps.inv, hkeeps.config⟩

/-! ## A host that keeps the rules is never stopped -/

theorem run_succ_of_step {s u : State} (h : step s = .next u) (n : Nat) :
    Host.Core.run Sys2Proof.core (n + 1) s = Host.Core.run Sys2Proof.core n u := by
  have hcore : Sys2Proof.core.step s = .next u := h
  simp only [Host.Core.run, hcore]

/-- A predicate from which every step leads to a next state that has it again holds after every number of steps. -/
theorem run_next_of_step {P : State → Prop} (hstep : ∀ s, P s → ∃ t, step s = .next t ∧ P t) (n : Nat) {s : State}
    (hs : P s) : ∃ t, Host.Core.run Sys2Proof.core n s = .next t ∧ P t := by
  induction n generalizing s with
  | zero => exact ⟨s, rfl, hs⟩
  | succ n ih =>
    obtain ⟨u, hu, hPu⟩ := hstep s hs
    obtain ⟨t, ht, hPt⟩ := ih hPu
    exact ⟨t, (run_succ_of_step hu n).trans ht, hPt⟩

theorem step_next_of_hostKeepsRules (s : State) (h : s.Inv ∧ s.hostKeepsRules) :
    ∃ t, step s = .next t ∧ t.Inv ∧ t.hostKeepsRules := by
  obtain ⟨hs, hrules⟩ := h
  cases hp : s.pending with
  | nil => exact ⟨s, step_of_no_action hp, hs, hrules⟩
  | cons a rest =>
    have hall : ∀ b ∈ a :: rest, b.wf s.config = true := hp ▸ hrules
    rw [step_of_pending hp]
    rcases performAction_of_inv (hs.takeAction rest) a with ⟨hbad, -⟩ | ⟨t, ht, hkeeps⟩
    · exact absurd (hall a List.mem_cons_self) (by simp [hbad])
    · refine ⟨t, ht, hkeeps.inv, fun b hb => ?_⟩
      have hpending : t.pending = rest := hkeeps.pending
      rw [hkeeps.config]
      exact hall b (List.mem_cons_of_mem a (hpending ▸ hb))

/-- Settles O33, by induction on the number of steps with the invariant and the access rules of all waiting actions. -/
theorem legalRunsNeverStop : Obligations.LegalRunsNeverStop := by
  intro s hs hrules n
  obtain ⟨t, ht, hinv, -⟩ := run_next_of_step step_next_of_hostKeepsRules n ⟨hs, hrules⟩
  exact ⟨t, ht, hinv⟩

end Sys2Proof.Machine

/-!
# State (spec 10): the registers, the buffers, and who writes them

SUPPORT. Proofs of the statements O4, O7, O14, O15, O17, O22, O23, O24, O27 and O31.
-/

namespace Sys2Proof.Machine

/-! ## After reset (R20) -/

/-- Settles O7: an empty buffer reads 0 at every index. -/
theorem resetValuesAreZero : Obligations.ResetValuesAreZero :=
  ⟨rfl, rfl, rfl, rfl, rfl, rfl, rfl, fun i _ => ⟨Memory.read_nil i, Memory.read_nil i⟩, fun i _ => Memory.read_nil i⟩

/-- Settles O31: the case of `State.Inv.reset_of_config` at the default `MAXLEN`. -/
theorem resetSatisfiesTheInvariant : Obligations.ResetSatisfiesTheInvariant :=
  State.Inv.reset_of_config (c := Config.standard) (by decide) []

/-! ## The written word and its command (R7, R35) -/

theorem decode_encode (i : Instr) : decode (encode i) = .ok i := by
  cases i <;> rfl

theorem runCommand_of_decode {w : Word} {i : Instr} (h : decode w = .ok i) (s : State) :
    runCommand w s = exec i s := by
  simp only [runCommand, h]

/-- All 32 bits of the word are the command's (log entry 13). -/
theorem withFetchWord_toNat (s : State) (w : Word) : s.withFetchWord 32 w.toNat = s.issue (.regWrite 0x00 w) := by
  rw [State.withFetchWord, Nat.mod_eq_of_lt w.isLt, BitVec.ofNat_toNat, BitVec.setWidth_eq]

/-- Settles O4: a `RegWrite` at offset 0x00 runs the word it carries, and the word of a command decodes to it. -/
theorem stepRunsTheDecodedCommand : Obligations.StepRunsTheDecodedCommand := by
  constructor
  · intro s w i rest hp hw
    rw [step_of_pending hp]
    exact runCommand_of_decode hw _
  · intro s i
    rw [withFetchWord_toNat, step_issue_command]
    exact runCommand_of_decode (decode_encode i) _

/-! ## What a command writes (R19) -/

/-- The common writes of the first row of R19, and nothing else: `STATUS`, `OLEN`, `RES`, `OFF` and `OBUF`. -/
theorem runCommand_writes (w : Word) (s : State) : ∃ e n v o m,
    runCommand w s = .next { s with done := true, err := e, olen := n, res := v, off := o, obuf := m } := by
  rcases runCommand_ends w s with ⟨c, -, h⟩ | ⟨d, -, -, h⟩ | ⟨o, v, -, h⟩
  · exact ⟨_, _, _, _, _, h⟩
  · exact ⟨_, _, _, _, _, h⟩
  · exact ⟨_, _, _, _, _, h⟩

theorem runCommand_next_inputs {w : Word} {s t : State} (h : runCommand w s = .next t) :
    s.sameInputs t ∧ t.ibufA = s.ibufA ∧ t.ibufB = s.ibufB := by
  obtain ⟨e, n, v, o, m, hrun⟩ := runCommand_writes w s
  cases hrun.symm.trans h
  exact ⟨⟨rfl, rfl, fun _ => rfl, fun _ => rfl, rfl, rfl, rfl⟩, rfl, rfl⟩

/-- Settles O14: no end of a command writes an operand. -/
theorem commandsLeaveTheOperandsAlone : Obligations.CommandsLeaveTheOperandsAlone := by
  constructor
  · intro i s t h
    rw [← runCommand_of_decode (decode_encode i)] at h
    exact runCommand_next_inputs h
  · intro w s t h
    rw [step_issue_command] at h
    exact runCommand_next_inputs h

/-- Settles O15: a command's condition and its value read operands only, and each of its ends overwrites all six
results. -/
theorem commandsReadNoResult : Obligations.CommandsReadNoResult := by
  intro i s d e n v o m
  cases i with
  | enc => rfl
  | dec => rfl
  | trunc => rfl
  | cmp => rfl

/-! ## The outputs each command can leave (R11, R12, R13, R16) -/

/-- Which outputs may stand in `t`, the state after command `i`. -/
def OutputsOf (i : Instr) (t : State) : Prop :=
  ((i = .enc ∨ i = .dec ∨ t.err ≠ .noError) → t.res = 0) ∧
  ((i ≠ .trunc ∨ t.err ≠ .noError) → t.off = 0) ∧
  ((i = .trunc ∨ i = .cmp ∨ t.err ≠ .noError) → t.olen = 0 ∧ ∀ k, t.obuf.read k = 0) ∧
  t.res.toNat ≤ 0x7FFFFFFF ∧ (i = .cmp → t.res = 0 ∨ t.res = 1)

theorem outputsOf_raiseError (i : Instr) (c : ErrorCode) (s : State) : OutputsOf i (raiseError c s) :=
  ⟨fun _ => rfl, fun _ => rfl, fun _ => ⟨rfl, Memory.read_nil⟩, Nat.zero_le _, fun _ => .inl rfl⟩

theorem outputsOf_completeWithString {i : Instr} (hi : i = .enc ∨ i = .dec) (d : List Byte) (s : State) :
    OutputsOf i (completeWithString d s) := by
  refine ⟨fun _ => rfl, fun _ => rfl, fun h => ?_, Nat.zero_le _, fun _ => .inl rfl⟩
  rcases hi with rfl | rfl <;> simp at h

theorem outputsOf_trunc (o : BitVec 4) {v : Word} (hv : v.toNat ≤ 0x7FFFFFFF) (s : State) :
    OutputsOf .trunc (completeWithScalar o v s) :=
  ⟨fun h => by simp at h, fun h => by simp at h, fun _ => ⟨rfl, Memory.read_nil⟩, hv, fun h => by cases h⟩

theorem outputsOf_cmp (b : BitVec 1) (s : State) : OutputsOf .cmp (completeWithScalar 0 (b.zeroExtend 32) s) := by
  have hbit : b.zeroExtend 32 = 0 ∨ b.zeroExtend 32 = (1 : Word) := by
    revert b
    decide
  refine ⟨fun h => by simp at h, fun _ => rfl, fun _ => ⟨rfl, Memory.read_nil⟩, ?_, fun _ => hbit⟩
  rcases hbit with h | h <;> simp [h]

/-- Settles O17: an error leaves no output, and each command ends otherwise with its own kind of result. -/
theorem outputsOfEachCommand : Obligations.OutputsOfEachCommand := by
  intro i s
  by_cases hl : lengthError i s
  · exact ⟨_, exec_of_lengthError hl, outputsOf_raiseError i _ s⟩
  cases i with
  | enc => exact ⟨_, exec_enc_of_fits hl, outputsOf_completeWithString (.inl rfl) _ s⟩
  | dec =>
    cases hd : b32dec (operandA s) with
    | ok d => exact ⟨_, exec_dec_of_ok hl hd, outputsOf_completeWithString (.inr rfl) d s⟩
    | error e => exact ⟨_, exec_dec_of_error hl hd, outputsOf_raiseError .dec _ s⟩
  | trunc => exact ⟨_, exec_trunc_of_fits hl, outputsOf_trunc _ (dtValue_le _) s⟩
  | cmp => exact ⟨_, exec_cmp_of_fits hl, outputsOf_cmp _ s⟩

/-! ## What a host action changes -/

/-- Everything a host action that is not refused can leave of the state `s`. -/
inductive ActionEffect (s : State) : HostAction → State → Prop where
  /-- A command writes the results only. -/
  | command (w : Word) (e : ErrorCode) (n v : Word) (o : BitVec 4) (m : Memory) :
    ActionEffect s (.regWrite 0x00 w)
      { s with done := true, err := e, olen := n, res := v, off := o, obuf := m, answer := none }
  /-- A read, and a write of a read-only place, change no more than the answer. -/
  | answered (a : HostAction) (x : Option Answer) : ActionEffect s a { s with answer := x }
  | setLenA (v : Word) : ActionEffect s (.regWrite 0x08 v) { s with lenA := v, answer := none }
  | setLenB (v : Word) : ActionEffect s (.regWrite 0x0C v) { s with lenB := v, answer := none }
  | writeA (i : Nat) (v : Byte) :
    ActionEffect s (.bufWrite .bufA i v) { s with ibufA := s.ibufA.write i v, answer := none }
  | writeB (i : Nat) (v : Byte) :
    ActionEffect s (.bufWrite .bufB i v) { s with ibufB := s.ibufB.write i v, answer := none }
  | reset : ActionEffect s .reset { State.reset with config := s.config, pending := s.pending }

theorem actionEffect_of_step {s t : State} {a : HostAction} (h : step (s.issue a) = .next t) :
    ActionEffect s a t := by
  by_cases hcmd : ∃ w, a = .regWrite 0x00 w
  · obtain ⟨w, rfl⟩ := hcmd
    obtain ⟨e, n, v, o, m, hrun⟩ := runCommand_writes w { s with answer := none }
    rw [step_issue_command, hrun] at h
    cases h
    exact .command w e n v o m
  · rw [step_issue] at h
    rcases performAction_cases { s with answer := none } a fun w hw => hcmd ⟨w, hw⟩ with ⟨-, r, hr⟩ | ⟨-, hnext⟩
    · cases hr.symm.trans h
    rcases hnext with ⟨x, hx⟩ | ⟨v, rfl, hx⟩ | ⟨v, rfl, hx⟩ | ⟨i, v, -, rfl, hx⟩ | ⟨i, v, -, rfl, hx⟩ | ⟨rfl, hx⟩ <;>
      cases hx.symm.trans h
    · exact .answered a x
    · exact .setLenA v
    · exact .setLenB v
    · exact .writeA i v
    · exact .writeB i v
    · exact .reset

/-- Settles O27, by the effects of a host action: a buffer write leaves every other index alone. -/
theorem operandsChangeOnlyByTheirOwnWrite : Obligations.OperandsChangeOnlyByTheirOwnWrite := by
  intro s t a h
  cases actionEffect_of_step h with
  | command | answered => exact ⟨rfl, rfl, fun _ => ⟨fun _ _ => rfl, fun _ _ => rfl, fun _ => rfl, fun _ => rfl⟩⟩
  | setLenA v =>
    exact ⟨rfl, rfl, fun _ => ⟨fun _ _ => rfl, fun _ _ => rfl, fun hne => absurd rfl (hne v), fun _ => rfl⟩⟩
  | setLenB v =>
    exact ⟨rfl, rfl, fun _ => ⟨fun _ _ => rfl, fun _ _ => rfl, fun _ => rfl, fun hne => absurd rfl (hne v)⟩⟩
  | writeA i v =>
    refine ⟨rfl, rfl, fun _ => ⟨fun k hne => ?_, fun _ _ => rfl, fun _ => rfl, fun _ => rfl⟩⟩
    exact Memory.read_write_other v fun hk => hne v (by rw [hk])
  | writeB i v =>
    refine ⟨rfl, rfl, fun _ => ⟨fun _ _ => rfl, fun k hne => ?_, fun _ => rfl, fun _ => rfl⟩⟩
    exact Memory.read_write_other v fun hk => hne v (by rw [hk])
  | reset => exact ⟨rfl, rfl, fun hne => absurd rfl hne⟩

/-! ## STATUS (R8) -/

theorem statusWord_fields (s : State) : (statusWord s).getLsbD 0 = s.done ∧ (statusWord s).extractLsb' 1 3 = 0 ∧
    (statusWord s).extractLsb' 4 4 = s.err.code ∧ (statusWord s).extractLsb' 8 24 = 0 := by
  rw [statusWord]
  cases s.done <;> cases s.err <;> decide

theorem statusWord_congr {s t : State} (hdone : t.done = s.done) (herr : t.err = s.err) :
    statusWord t = statusWord s := by
  rw [statusWord, statusWord, hdone, herr]

/-- A legal state with `DONE = 0` has no error code, so the codes occur beside `DONE = 1` only (R72). -/
theorem statusWord_mem_of_inv {s : State} (hs : s.Inv) :
    statusWord s ∈ [0x00, 0x01, 0x11, 0x21, 0x31, (0x41 : Word)] := by
  rw [statusWord]
  cases hd : s.done with
  | false =>
    rw [(hs.fresh hd).1]
    decide
  | true => cases s.err <;> decide

theorem statusWord_of_step {s t : State} {a : HostAction} (hcmd : ∀ w, a ≠ .regWrite 0x00 w) (hreset : a ≠ .reset)
    (h : step (s.issue a) = .next t) : statusWord t = statusWord s := by
  cases actionEffect_of_step h with
  | command w => exact absurd rfl (hcmd w)
  | reset => exact absurd rfl hreset
  | answered | setLenA | setLenB | writeA | writeB => exact statusWord_congr rfl rfl

theorem step_command_done {s t : State} {w : Word} (h : step (s.issue (.regWrite 0x00 w)) = .next t) :
    t.done = true := by
  obtain ⟨e, n, v, o, m, hrun⟩ := runCommand_writes w { s with answer := none }
  rw [step_issue_command, hrun] at h
  cases h
  rfl

/-- Settles O22: the values by `DONE` and `ERR`, the writers by the effects of a host action. -/
theorem statusWordValues : Obligations.StatusWordValues :=
  ⟨fun _ => statusWord_mem_of_inv, statusWord_fields, rfl, fun _ _ _ => step_command_done,
    fun _ _ _ => statusWord_of_step, fun _ _ => rfl, fun _ => rfl⟩

/-! ## LEN_A (R9) -/

theorem lenA_of_step {s t : State} {a : HostAction} (h : step (s.issue a) = .next t) :
    t.lenA = s.lenA ∨ a = .regWrite 0x08 t.lenA ∨ (a = .reset ∧ t.lenA = 0) := by
  cases actionEffect_of_step h with
  | setLenA v => exact .inr (.inl rfl)
  | reset => exact .inr (.inr ⟨rfl, rfl⟩)
  | command | answered | setLenB | writeA | writeB => exact .inl rfl

/-- A legal `MAXLEN` is at least the digest's 20 bytes, so an over-long `LEN_A` is TRUNC's error too. -/
theorem lengthError_of_lenA_tooLong (i : Instr) {s : State} (hc : s.config.wf = true)
    (h : s.config.maxLen < s.lenA.toNat) : lengthError i s := by
  cases i with
  | enc | dec => exact h
  | trunc =>
    obtain ⟨hmin, -⟩ := (config_wf_iff s.config).1 hc
    simp only [lengthError]
    omega
  | cmp => exact .inl h

/-- Settles O23: a store and its read by computation, the writers by the effects of a host action. -/
theorem lenAStoresAnyWord : Obligations.LenAStoresAnyWord :=
  ⟨rfl, fun _ _ => ⟨_, rfl, rfl, rfl⟩, fun _ _ _ => lenA_of_step,
    fun _ i hc h => exec_of_lengthError (lengthError_of_lenA_tooLong i hc h)⟩

/-! ## LEN_B (R10) -/

theorem lenB_of_step {s t : State} {a : HostAction} (h : step (s.issue a) = .next t) :
    t.lenB = s.lenB ∨ a = .regWrite 0x0C t.lenB ∨ (a = .reset ∧ t.lenB = 0) := by
  cases actionEffect_of_step h with
  | setLenB v => exact .inr (.inl rfl)
  | reset => exact .inr (.inr ⟨rfl, rfl⟩)
  | command | answered | setLenA | writeA | writeB => exact .inl rfl

theorem lengthError_setLenB_iff {i : Instr} (hi : i ≠ .cmp) (s : State) (v : Word) :
    lengthError i { s with lenB := v } ↔ lengthError i s := by
  cases i with
  | enc | dec | trunc => exact Iff.rfl
  | cmp => exact absurd rfl hi

/-- Neither the length error nor the value of ENC, DEC or TRUNC reads `LEN_B`. -/
theorem exec_setLenB {i : Instr} (hi : i ≠ .cmp) (s : State) (v : Word) :
    ∃ t, exec i s = .next t ∧ exec i { s with lenB := v } = .next { t with lenB := v } := by
  have hiff := lengthError_setLenB_iff hi s v
  by_cases hl : lengthError i s
  · exact ⟨_, exec_of_lengthError hl, exec_of_lengthError (hiff.2 hl)⟩
  have hl' : ¬ lengthError i { s with lenB := v } := fun hbad => hl (hiff.1 hbad)
  cases i with
  | enc => exact ⟨_, exec_enc_of_fits hl, exec_enc_of_fits hl'⟩
  | dec =>
    cases hd : b32dec (operandA s) with
    | ok d => exact ⟨_, exec_dec_of_ok hl hd, exec_dec_of_ok hl' hd⟩
    | error e => exact ⟨_, exec_dec_of_error hl hd, exec_dec_of_error hl' hd⟩
  | trunc => exact ⟨_, exec_trunc_of_fits hl, exec_trunc_of_fits hl'⟩
  | cmp => exact absurd rfl hi

/-- Settles O24, by the effects of a host action and by `exec_setLenB`. -/
theorem lenBIsReadByCmpOnly : Obligations.LenBIsReadByCmpOnly :=
  ⟨rfl, fun _ _ => ⟨_, rfl, rfl, rfl⟩, fun _ _ _ => lenB_of_step, fun s _ v hi => exec_setLenB hi s v,
    fun _ h => exec_of_lengthError (i := .cmp) (.inr h)⟩

end Sys2Proof.Machine

/-!
# Memory (spec 20): what the host reads, what it writes, and what is refused

SUPPORT. Proofs of the statements O21, O25, O26 and O28.
-/

namespace Sys2Proof.Machine

/-! ## A byte access inside its region (R23) -/

theorem step_issue_bufRead {s : State} {b : Buffer} {i : Nat} (hi : i < bufferSize s.config b) :
    step (s.issue (.bufRead b i)) = .next { s with answer := some (.byte ((readBuffer s b).read i)) } := by
  rw [step_issue, performAction, bufReadAction, if_pos hi]
  cases b <;> rfl

theorem step_issue_bufWrite {s : State} {b : Buffer} {i : Nat} (v : Byte) (hi : i < bufferSize s.config b) :
    step (s.issue (.bufWrite b i v)) = .next (writeBuffer { s with answer := none } b i v) := by
  rw [step_issue, performAction, bufWriteAction, if_pos hi]

/-! ## Reads (R24) -/

/-- The two fields of `STATUS` as one number: `ERR` stands four bits above `DONE`. -/
theorem statusWord_eq_ofNat (s : State) :
    statusWord s = BitVec.ofNat 32 (s.err.code.toNat * 16 + s.done.toNat) := by
  rw [statusWord]
  cases s.err <;> cases s.done <;> rfl

/-- A register read answers what the register reads as, and changes nothing else. -/
theorem step_issue_regRead {s : State} {off : Nat} {r : RegName} (h : regAt off = some r) :
    step (s.issue (.regRead off)) = .next { s with answer := some (.word (readReg s r)) } := by
  rw [step_issue, performAction, regReadAction, h]
  cases r <;> rfl

theorem readReg_off (s : State) : readReg s .off = BitVec.ofNat 32 s.off.toNat :=
  (BitVec.ofNat_toNat 32 s.off).symm

/-- Settles O21: each access answers its location, and `OBUF` lists no index from `OLEN` on. -/
theorem readsAnswerAndChangeNothing : Obligations.ReadsAnswerAndChangeNothing := by
  intro s
  refine ⟨step_issue_regRead (r := .cmd) rfl, ?_, step_issue_regRead (r := .lenA) rfl,
    step_issue_regRead (r := .lenB) rfl, step_issue_regRead (r := .olen) rfl, step_issue_regRead (r := .res) rfl, ?_,
    fun i hi => ⟨step_issue_bufRead hi, step_issue_bufRead hi⟩, fun i hi => step_issue_bufRead hi,
    fun hs i hi => Memory.read_of_below hs.obuf_below hi⟩
  · rw [← statusWord_eq_ofNat]
    exact step_issue_regRead (r := .status) rfl
  · rw [← readReg_off]
    exact step_issue_regRead rfl

/-! ## Writes (R25) -/

/-- Settles O25: the register writes by computation of the offset, the buffer writes by the laws of a read after a
write. -/
theorem writesChangeTheirLocationOnly : Obligations.WritesChangeTheirLocationOnly := by
  refine ⟨fun s w i hw => ?_, fun s v => ⟨rfl, rfl, rfl, rfl, rfl, rfl⟩, fun s i b hm hi => ?_, fun s i b hm hi => ?_,
    fun s i b hi => step_issue_bufWrite b hi⟩
  · rw [step_issue_command]
    exact runCommand_of_decode hw _
  · exact ⟨_, step_issue_bufWrite b hi, rfl, Memory.read_write_same hm i b, fun _ => Memory.read_write_other b⟩
  · exact ⟨_, step_issue_bufWrite b hi, rfl, Memory.read_write_same hm i b, fun _ => Memory.read_write_other b⟩

/-! ## Refusals (R26) -/

/-- From every state, legal or not, an action is refused and breaks the access rules, or it keeps them and goes on. -/
theorem step_issue_outcome (s : State) (a : HostAction) :
    (a.wf s.config = false ∧ ∃ r, step (s.issue a) = .refused r) ∨
    (a.wf s.config = true ∧ ∃ t, step (s.issue a) = .next t) := by
  by_cases hcmd : ∃ w, a = .regWrite 0x00 w
  · obtain ⟨w, rfl⟩ := hcmd
    obtain ⟨e, n, v, o, m, hrun⟩ := runCommand_writes w { s with answer := none }
    exact .inr ⟨rfl, _, hrun⟩
  rw [step_issue]
  rcases performAction_cases { s with answer := none } a fun w hw => hcmd ⟨w, hw⟩ with hrefused | ⟨hwf, hnext⟩
  · exact .inl hrefused
  refine .inr ⟨hwf, ?_⟩
  rcases hnext with ⟨_, h⟩ | ⟨_, -, h⟩ | ⟨_, -, h⟩ | ⟨_, _, -, -, h⟩ | ⟨_, _, -, -, h⟩ | ⟨-, h⟩ <;> exact ⟨_, h⟩

/-- Settles O26: the two outcomes exclude each other, and so do the two verdicts of the access rules. -/
theorem refusedExactlyOutsideTheAccessRules : Obligations.RefusedExactlyOutsideTheAccessRules := by
  constructor <;> intro s a
  · rcases step_issue_outcome s a with ⟨hwf, hrefused⟩ | ⟨hwf, t, ht⟩
    · exact iff_of_true hrefused hwf
    · simp [hwf, ht]
  · rcases step_issue_outcome s a with ⟨hwf, r, hr⟩ | ⟨hwf, hnext⟩
    · simp [hwf, hr]
    · exact iff_of_true hnext hwf

/-! ## Results last (R28, R72) -/

/-- Settles O28, by the effects of a host action: a command and a reset are the only ones that write a result. -/
theorem resultsLastUntilTheNextCommand : Obligations.ResultsLastUntilTheNextCommand := by
  intro s t a hlast h
  cases actionEffect_of_step h with
  | command | reset => cases hlast
  | answered | setLenA | setLenB | writeA | writeB => exact ⟨rfl, rfl, rfl, rfl, rfl, rfl⟩

end Sys2Proof.Machine

/-!
# Encoding (spec 30): the command words, the illegal ones, and the alphabet

SUPPORT. Proofs of the statements O1, O2, O3 and O39.
-/

namespace Sys2Proof.Machine

/-! ## The opcode map (R34, R35) -/

theorem and_fullMask (w : Word) : w &&& 0xFFFFFFFF = w :=
  BitVec.and_allOnes

/-- Each row compares the whole word with the command word of its instruction. -/
theorem opcodeMap_row : ∀ r ∈ opcodeMap, r.mask = 0xFFFFFFFF ∧ r.matchWord = encode r.instr := by
  decide

theorem hits_iff_eq_encode {r : OpcodeRow} (hr : r ∈ opcodeMap) (w : Word) :
    r.hits w = true ↔ w = encode r.instr := by
  obtain ⟨hmask, hmatch⟩ := opcodeMap_row r hr
  rw [OpcodeRow.hits, hmask, hmatch, and_fullMask, beq_iff_eq]

/-- A word that decodes was found in the map, and the row that it hits determines it. -/
theorem eq_encode_of_decode {w : Word} {i : Instr} (h : decode w = .ok i) : w = encode i := by
  unfold decode at h
  split at h
  case h_1 r hfind =>
    obtain rfl : r.instr = i := Except.ok.inj h
    have hhits : r.hits w = true := List.find?_some (p := fun r : OpcodeRow => r.hits w) hfind
    exact (hits_iff_eq_encode (List.mem_of_find?_eq_some hfind) w).1 hhits
  case h_2 => cases h

theorem decode_eq_ok_iff (w : Word) (i : Instr) : decode w = .ok i ↔ w = encode i :=
  ⟨eq_encode_of_decode, fun h => h ▸ decode_encode i⟩

theorem decode_eq_ok_iff_masked (w : Word) (i : Instr) : decode w = .ok i ↔ w &&& 0xFFFFFFFF = encode i := by
  rw [and_fullMask, decode_eq_ok_iff]

/-- Settles O1: each constant is the command word of its row's instruction. -/
theorem commandWordsOfTheOpcodeMap : Obligations.CommandWordsOfTheOpcodeMap :=
  ⟨fun w => decode_eq_ok_iff_masked w .enc, fun w => decode_eq_ok_iff_masked w .dec,
    fun w => decode_eq_ok_iff_masked w .trunc, fun w => decode_eq_ok_iff_masked w .cmp⟩

/-! ## Legal words by their fields (R34, R36) -/

/-- The two fields of format `C` make up the whole word. -/
theorem rsvField_append_opField (w : Word) : (rsvField w ++ opField w : BitVec 32) = w := by
  ext k hk
  simp only [rsvField, opField, BitVec.getElem_append, BitVec.getElem_extractLsb']
  split
  · simp [BitVec.getLsbD_eq_getElem hk]
  · rw [Nat.add_sub_cancel' (by omega), BitVec.getLsbD_eq_getElem hk]

theorem commandWord_fields (i : Instr) : Laws.CommandWord.Statement i := by
  cases i with
  | enc => exact Laws.CommandWord.enc
  | dec => exact Laws.CommandWord.dec
  | trunc => exact Laws.CommandWord.trunc
  | cmp => exact Laws.CommandWord.cmp

theorem eq_encode_of_fields {w : Word} {i : Instr} (hrsv : rsvField w = 0) (hop : opField w = opcodeOf i) :
    w = encode i :=
  calc
    w = rsvField w ++ opField w := (rsvField_append_opField w).symm
    _ = encode i := by rw [hrsv, hop]; rfl

theorem commandWordWf_iff (w : Word) : commandWordWf w = true ↔ ∃ i, w = encode i := by
  constructor
  · intro h
    simp only [commandWordWf, Bool.and_eq_true, Bool.or_eq_true, beq_iff_eq] at h
    obtain ⟨hrsv, ((hop | hop) | hop) | hop⟩ := h
    · exact ⟨.enc, eq_encode_of_fields hrsv hop⟩
    · exact ⟨.dec, eq_encode_of_fields hrsv hop⟩
    · exact ⟨.trunc, eq_encode_of_fields hrsv hop⟩
    · exact ⟨.cmp, eq_encode_of_fields hrsv hop⟩
  · rintro ⟨i, rfl⟩
    obtain ⟨-, hlegal, -, -⟩ := commandWord_fields i
    exact hlegal

theorem decodeTableWord_toNat (w : Word) : decodeTableWord 32 w.toNat = (decode w).toOption := by
  rw [decodeTableWord, Nat.mod_eq_of_lt w.isLt, BitVec.ofNat_toNat, BitVec.setWidth_eq]
  cases decode w <;> rfl

/-- Settles O2: decoding is the inverse of `encode`, and the legal words are its values. -/
theorem decodeAndEncodeAgree : Obligations.DecodeAndEncodeAgree := by
  refine ⟨fun i _ => ⟨decode_encode i, ?_⟩, fun w i h => (eq_encode_of_decode h).symm, fun w => ?_⟩
  · rw [decodeTableWord_toNat, decode_encode]
    rfl
  · simp only [commandWordWf_iff, decode_eq_ok_iff]

/-! ## Illegal words (R36) -/

theorem runCommand_of_illegal {w : Word} (h : ∀ i, w ≠ encode i) (s : State) :
    runCommand w s = failsWith .illegalCommand s := by
  rcases runCommand_cases w s with ⟨i, hi, -⟩ | ⟨r, -, hrun⟩
  · exact absurd (eq_encode_of_decode hi) (h i)
  · exact hrun

theorem ne_encode_of_rsvField {w : Word} (h : rsvField w ≠ 0) (i : Instr) : w ≠ encode i := by
  rintro rfl
  obtain ⟨-, -, hrsv, -⟩ := commandWord_fields i
  exact h hrsv

/-- Settles O3: the four words of the map are the only ones that decode, and none has a reserved bit set. -/
theorem illegalWordsCompleteWithCodeFour : Obligations.IllegalWordsCompleteWithCodeFour := by
  refine ⟨fun w henc hdec htrunc hcmp s => ?_, fun w h => ?_, rfl⟩
  · rw [step_issue_command]
    refine runCommand_of_illegal (fun i => ?_) _
    cases i with
    | enc => exact henc
    | dec => exact hdec
    | trunc => exact htrunc
    | cmp => exact hcmp
  · have hne := ne_encode_of_rsvField h
    exact ⟨hne .enc, hne .dec, hne .trunc, hne .cmp⟩

/-! ## The alphabet (R39) -/

/-- The codes of the letters `A` to `Z`. -/
def IsLetter (c : Byte) : Prop := 0x41 ≤ c.toNat ∧ c.toNat ≤ 0x5A

/-- The codes of the digits `2` to `7`. -/
def IsDigit (c : Byte) : Prop := 0x32 ≤ c.toNat ∧ c.toNat ≤ 0x37

theorem val_of_isLetter {c : Byte} (h : IsLetter c) : val c = some (BitVec.ofNat 5 (c.toNat - 0x41)) :=
  if_pos h

theorem val_of_isDigit {c : Byte} (h : IsDigit c) : val c = some (BitVec.ofNat 5 (c.toNat - 0x32 + 26)) := by
  obtain ⟨hlo, hhi⟩ := h
  rw [val, if_neg (by omega), if_pos ⟨hlo, hhi⟩]

theorem val_of_noSymbol {c : Byte} (hl : ¬ IsLetter c) (hd : ¬ IsDigit c) : val c = none :=
  (if_neg hl).trans (if_neg hd)

theorem toNat_val_of_isLetter {c : Byte} (h : IsLetter c) : (val c).map BitVec.toNat = some (c.toNat - 0x41) := by
  obtain ⟨hlo, hhi⟩ := h
  rw [val_of_isLetter ⟨hlo, hhi⟩, Option.map_some, BitVec.toNat_ofNat, Nat.mod_eq_of_lt (by omega)]

theorem toNat_val_of_isDigit {c : Byte} (h : IsDigit c) :
    (val c).map BitVec.toNat = some (c.toNat - 0x32 + 26) := by
  obtain ⟨hlo, hhi⟩ := h
  rw [val_of_isDigit ⟨hlo, hhi⟩, Option.map_some, BitVec.toNat_ofNat, Nat.mod_eq_of_lt (by omega)]

theorem val_eq_none_iff (c : Byte) : val c = none ↔ ¬ IsLetter c ∧ ¬ IsDigit c := by
  refine ⟨fun h => ⟨fun hl => ?_, fun hd => ?_⟩, fun ⟨hl, hd⟩ => val_of_noSymbol hl hd⟩
  · cases h.symm.trans (val_of_isLetter hl)
  · cases h.symm.trans (val_of_isDigit hd)

/-- The closed form of `sym` undoes the closed form of `val`, on the letters and on the digits. -/
theorem sym_of_val {c : Byte} {v : SymbolValue} (h : val c = some v) : sym v = c := by
  by_cases hl : IsLetter c
  · have hv : v.toNat = c.toNat - 0x41 := by simpa [h] using toNat_val_of_isLetter hl
    obtain ⟨hlo, hhi⟩ := hl
    rw [sym, hv, if_pos (by omega), Nat.add_sub_cancel' hlo, BitVec.ofNat_toNat, BitVec.setWidth_eq]
  by_cases hd : IsDigit c
  · have hv : v.toNat = c.toNat - 0x32 + 26 := by simpa [h] using toNat_val_of_isDigit hd
    obtain ⟨hlo, hhi⟩ := hd
    rw [sym, hv, if_neg (by omega), Nat.add_sub_cancel, Nat.add_sub_cancel' hlo, BitVec.ofNat_toNat,
      BitVec.setWidth_eq]
  · cases h.symm.trans (val_of_noSymbol hl hd)

/-- Settles O39: the table by computation, the rest by the closed forms. -/
theorem alphabetTable : Obligations.AlphabetTable :=
  ⟨by decide, val_sym, fun _ _ => sym_of_val, val_eq_none_iff, fun _ => toNat_val_of_isLetter,
    fun _ => toNat_val_of_isDigit, rfl, rfl⟩

end Sys2Proof.Machine

/-!
# The base32 encoder (spec 40): its lengths, its form by groups of five bytes, and ENC

SUPPORT. Proofs of the statements O10, O36 and O37.
-/

namespace Sys2Proof.Machine

/-! ## Symbol values by their bits -/

theorem bitString_injective {n : Nat} : Function.Injective (bitString (n := n)) :=
  Function.LeftInverse.injective (g := fun t => BitVec.ofNat n (num t)) ofNat_num_bitString

theorem decoderBits_cons (v : SymbolValue) (vs : List SymbolValue) :
    decoderBits (v :: vs) = bitString v ++ decoderBits vs := rfl

theorem decoderBits_append (us vs : List SymbolValue) :
    decoderBits (us ++ vs) = decoderBits us ++ decoderBits vs :=
  List.flatMap_append

/-- Symbols have one width, so their joined bits determine them. -/
theorem decoderBits_injective : Function.Injective decoderBits := by
  intro us
  induction us with
  | nil =>
    intro vs h
    have hlen : 5 * vs.length = 0 := by rw [← length_decoderBits, ← h]; rfl
    exact (List.length_eq_zero_iff.1 (by omega)).symm
  | cons u us ih =>
    intro vs h
    cases vs with
    | nil => simpa [decoderBits_cons] using congrArg List.length h
    | cons v vs =>
      obtain ⟨hv, hvs⟩ := List.append_inj h (by simp)
      rw [bitString_injective hv, ih hvs]

/-- The encoder's symbols are the ones that spell its bits. -/
theorem eq_encodedValues_of_bits {vs : List SymbolValue} {a : List Byte} (h : decoderBits vs = encoderBits a) :
    vs = encodedValues a :=
  decoderBits_injective (h.trans (decoderBits_encodedValues a).symm)

theorem decoderBits_take (vs : List SymbolValue) (d : Nat) :
    decoderBits (vs.take d) = (decoderBits vs).take (5 * d) := by
  induction vs generalizing d with
  | nil => simp [decoderBits]
  | cons v vs ih =>
    cases d with
    | zero => rfl
    | succ d =>
      rw [List.take_succ_cons, decoderBits_cons, decoderBits_cons, ih, List.take_append, length_bitString,
        List.take_of_length_le (l := bitString v) (by simp), Nat.mul_succ, Nat.add_sub_cancel]

/-! ## The form by groups of five bytes (R44) -/

/-- The shifts and masks of R44 cut the 40 bits of five bytes into eight symbols. -/
theorem decoderBits_groupValues (b0 b1 b2 b3 b4 : Byte) :
    decoderBits (groupValues b0 b1 b2 b3 b4) = [b0, b1, b2, b3, b4].flatMap bitString := by
  simp [groupValues, decoderBits, bitString, List.range_succ, BitVec.getMsbD]

theorem zeroFill_add_five (n : Nat) : zeroFill (n + 5) = zeroFill n := by
  simp only [zeroFill]
  omega

theorem symbolCount_add_five (n : Nat) : symbolCount (n + 5) = symbolCount n + 8 := by
  simp only [symbolCount]
  omega

theorem padCount_add_eight (m : Nat) : padCount (m + 8) = padCount m := by
  simp only [padCount]
  omega

/-- A whole group of five bytes needs no zero fill: its symbols stand before those of the rest. -/
theorem encodedValues_group (b0 b1 b2 b3 b4 : Byte) (rest : List Byte) :
    encodedValues (b0 :: b1 :: b2 :: b3 :: b4 :: rest) = groupValues b0 b1 b2 b3 b4 ++ encodedValues rest := by
  refine (eq_encodedValues_of_bits ?_).symm
  calc
    decoderBits (groupValues b0 b1 b2 b3 b4 ++ encodedValues rest)
        = [b0, b1, b2, b3, b4].flatMap bitString ++ encoderBits rest := by
      rw [decoderBits_append, decoderBits_groupValues, decoderBits_encodedValues]
    _ = encoderBits (b0 :: b1 :: b2 :: b3 :: b4 :: rest) := by
      simp [encoderBits, zeroFill_add_five]

theorem b32enc_group (b0 b1 b2 b3 b4 : Byte) (rest : List Byte) :
    b32enc (b0 :: b1 :: b2 :: b3 :: b4 :: rest) = (groupValues b0 b1 b2 b3 b4).map sym ++ b32enc rest := by
  simp only [b32enc_eq, encodedValues_group, List.length_cons, symbolCount_add_five, padCount_add_eight,
    List.map_append, List.append_assoc]

theorem flatMap_bitString_replicate_zero (j : Nat) :
    (List.replicate j (0 : Byte)).flatMap bitString = List.replicate (8 * j) false := by
  induction j with
  | zero => rfl
  | succ j ih =>
    rw [List.replicate_succ', List.flatMap_append, ih, Nat.mul_succ, List.replicate_add]
    rfl

/-- The zero fill is the beginning of the bits of the zero bytes that complete a group. -/
theorem encoderBits_eq_take (a : List Byte) {j : Nat} (hj : 0 < j) :
    encoderBits a =
      ((a ++ List.replicate j 0).flatMap bitString).take (5 * symbolCount a.length) := by
  have hfill : zeroFill a.length ≤ 8 * j := by
    simp only [zeroFill]
    omega
  have hdata : (a.flatMap bitString).length ≤ 8 * a.length + zeroFill a.length :=
    (length_flatMap_bitString a).le.trans (Nat.le_add_right _ _)
  rw [List.flatMap_append, flatMap_bitString_replicate_zero, ← zeroFill_symbolCount, List.take_append,
    List.take_of_length_le hdata, length_flatMap_bitString, Nat.add_sub_cancel_left, List.take_replicate,
    Nat.min_eq_left hfill, encoderBits]

/-- A last group of `k` bytes, completed with zero bytes to the five bytes of `vs`, gives the first symbols of `vs` and
the padding. -/
theorem b32enc_lastGroup {a : List Byte} {vs : List SymbolValue} {k : Nat} (ha : a.length = k) (hk : 0 < k ∧ k < 5)
    (h : decoderBits vs = (a ++ List.replicate (5 - k) 0).flatMap bitString) :
    b32enc a = lastGroup (symbolCount k) vs := by
  have hvalues : vs.take (symbolCount k) = encodedValues a := by
    refine eq_encodedValues_of_bits ?_
    rw [decoderBits_take, h, encoderBits_eq_take a (Nat.sub_pos_of_lt hk.2), ha]
  have hpad : padCount (symbolCount k) = 8 - symbolCount k := by
    simp only [padCount, symbolCount]
    omega
  rw [b32enc_eq, lastGroup, ha, hvalues, hpad]

/-- Settles O37, by induction on the groups of five bytes. -/
theorem encoderByGroupsIsTheEncoder : Obligations.EncoderByGroupsIsTheEncoder := by
  intro a
  induction a using b32encGroups.induct with
  | case1 => rfl
  | case2 b0 =>
    rw [b32encGroups]
    exact (b32enc_lastGroup (a := [b0]) (k := 1) rfl (by decide)
      (decoderBits_groupValues b0 0 0 0 0)).symm
  | case3 b0 b1 =>
    rw [b32encGroups]
    exact (b32enc_lastGroup (a := [b0, b1]) (k := 2) rfl (by decide)
      (decoderBits_groupValues b0 b1 0 0 0)).symm
  | case4 b0 b1 b2 =>
    rw [b32encGroups]
    exact (b32enc_lastGroup (a := [b0, b1, b2]) (k := 3) rfl (by decide)
      (decoderBits_groupValues b0 b1 b2 0 0)).symm
  | case5 b0 b1 b2 b3 =>
    rw [b32encGroups]
    exact (b32enc_lastGroup (a := [b0, b1, b2, b3]) (k := 4) rfl (by decide)
      (decoderBits_groupValues b0 b1 b2 b3 0)).symm
  | case6 b0 b1 b2 b3 b4 rest ih => rw [b32encGroups, ih, b32enc_group]

/-! ## Lengths and padding (R43) -/

theorem zeroFill_table (n : Nat) : zeroFill n = [0, 2, 4, 1, 3].getD (n % 5) 0 := by
  have hmod : zeroFill n = zeroFill (n % 5) := by
    simp only [zeroFill]
    omega
  have htable : ∀ r < 5, zeroFill r = [0, 2, 4, 1, 3].getD r 0 := by decide
  rw [hmod, htable _ (Nat.mod_lt n (by decide))]

theorem symbolCount_mod_eight_table (n : Nat) : symbolCount n % 8 = [0, 2, 4, 5, 7].getD (n % 5) 0 := by
  have hgroups : symbolCount n = symbolCount (n % 5) + 8 * (n / 5) := by
    simp only [symbolCount]
    omega
  have htable : ∀ r < 5, symbolCount r % 8 = [0, 2, 4, 5, 7].getD r 0 := by decide
  rw [hgroups, Nat.add_mul_mod_self_left, htable _ (Nat.mod_lt n (by decide))]

theorem padCount_table (n : Nat) : padCount (symbolCount n) = [0, 6, 4, 3, 1].getD (n % 5) 0 := by
  have htable : ∀ r < 5, (8 - [0, 2, 4, 5, 7].getD r 0) % 8 = [0, 6, 4, 3, 1].getD r 0 := by decide
  rw [padCount, symbolCount_mod_eight_table, htable _ (Nat.mod_lt n (by decide))]

/-- The five columns of R43's table hold the permitted run lengths of R46. -/
theorem padCount_mem (n : Nat) : padCount (symbolCount n) ∈ [0, 1, 3, 4, 6] := by
  have hmem : ∀ r < 5, [0, 6, 4, 3, 1].getD r 0 ∈ [0, 1, 3, 4, 6] := by decide
  rw [padCount_table]
  exact hmem _ (Nat.mod_lt n (by decide))

/-- No data symbol is `=`, so the padding run is the padding the encoder appended. -/
theorem padRun_b32enc (a : List Byte) : padRun (b32enc a) = padCount (symbolCount a.length) := by
  rw [b32enc_eq]
  refine padRun_append_replicate _ _ fun c hc => ?_
  obtain ⟨v, -, rfl⟩ := List.mem_map.1 hc
  exact sym_ne_padChar v

/-- What is left of the text without `=` is its data symbols. -/
theorem filter_ne_padChar_b32enc (a : List Byte) :
    (b32enc a).filter (fun c => c != padChar) = (encodedValues a).map sym := by
  have hdata : ((encodedValues a).map sym).filter (fun c => c != padChar) = (encodedValues a).map sym := by
    simp [sym_ne_padChar]
  rw [b32enc_eq, List.filter_append, hdata]
  simp

theorem length_b32enc_le_ocap {c : Config} {a : List Byte} (h : a.length ≤ c.maxLen) :
    (b32enc a).length ≤ ocap c := by
  rw [length_b32enc, ocap]
  omega

theorem length_b32enc_eq_ocap {c : Config} {a : List Byte} (h : a.length = c.maxLen) :
    (b32enc a).length = ocap c := by
  rw [length_b32enc, ocap, h]

/-- Settles O36: the padding run is the encoder's padding, and each column of the table depends on `n mod 5` only. -/
theorem encodedLengths : Obligations.EncodedLengths := by
  refine ⟨fun a => ⟨length_b32enc a, ?_, ?_, zeroFill_table _, symbolCount_mod_eight_table _, ?_, ?_⟩,
    fun _ _ => length_b32enc_le_ocap, fun _ _ => length_b32enc_eq_ocap⟩
  · have hsymbols := congrArg List.length (filter_ne_padChar_b32enc a)
    rwa [List.length_map, length_encodedValues] at hsymbols
  · rw [padRun_b32enc, padCount_table]
  · rw [padRun_b32enc]
    exact padCount_mem _
  · exact ⟨_, length_b32enc a⟩

/-! ## ENC (R45) -/

/-- The encoder emits the 32 symbols of the alphabet and `=`, nothing else. -/
theorem isSymbol_or_padChar_of_mem_b32enc {a : List Byte} {c : Byte} (h : c ∈ b32enc a) :
    (val c).isSome = true ∨ c = padChar := by
  rw [b32enc_eq] at h
  rcases List.mem_append.1 h with hdata | hpad
  · obtain ⟨v, -, rfl⟩ := List.mem_map.1 hdata
    exact .inl (by rw [val_sym]; rfl)
  · exact .inr (List.eq_of_mem_replicate hpad)

theorem byteAt_mem {s : List Byte} {i : Nat} (h : i < s.length) : byteAt s i ∈ s := by
  rw [byteAt, List.getD_eq_getElem s 0 h]
  exact List.getElem_mem h

/-- Settles O10: ENC completes with the text, whose length fits `OBUF` and so `OLEN`. -/
theorem encWritesTheBase32Text : Obligations.EncWritesTheBase32Text := by
  refine ⟨rfl, fun s hc hl => ?_, fun s hl => exec_of_lengthError (i := .enc) hl, by decide⟩
  have hexec := exec_enc_of_fits (s := s) (Nat.not_lt.2 hl)
  have hlen : (b32enc (operandA s)).length = 8 * ((s.lenA.toNat + 4) / 5) := by
    rw [length_b32enc, length_operandA]
  have hcap : (b32enc (operandA s)).length ≤ ocap s.config :=
    length_b32enc_le_ocap (by rwa [length_operandA])
  obtain ⟨holen, hread, htail, hbyte⟩ := completeWithString_output (b32enc (operandA s)) s
    (lt_of_le_of_lt (hcap.trans (ocap_le hc)) (by norm_num))
  obtain ⟨hinputs, -, -⟩ := commandsLeaveTheOperandsAlone.1 .enc s _ hexec
  rw [← holen] at hread htail hbyte
  refine ⟨_, hexec, rfl, rfl, holen.trans hlen, hread, htail, rfl, rfl, hinputs, fun hmax => ?_, fun i hi => ?_⟩
  · rw [holen]
    exact length_b32enc_eq_ocap ((length_operandA s).trans hmax)
  · rw [hbyte i hi]
    exact isSymbol_or_padChar_of_mem_b32enc (byteAt_mem (holen ▸ hi))

end Sys2Proof.Machine

/-!
# The base32 decoder (spec 41): its padding run, its bits, its form by groups of eight symbols, DEC and the round trip

SUPPORT. Proofs of the statements O11, O34, O35, O38, O40, O41, O42, O43 and O44.
-/

namespace Sys2Proof.Machine

/-! ## Bits to bytes (R48) -/

theorem decoderBits_nil : decoderBits [] = [] := rfl

theorem length_of_decoderBits_eq {vs : List SymbolValue} {bs : List Byte} (h : decoderBits vs = bs.flatMap bitString) :
    5 * vs.length = 8 * bs.length := by
  have hlen := congrArg List.length h
  rwa [length_decoderBits, length_flatMap_bitString] at hlen

theorem length_of_decoderBits_eq_append {vs : List SymbolValue} {d : List Byte} {r : Nat}
    (h : decoderBits vs = d.flatMap bitString ++ List.replicate r false) : 5 * vs.length = 8 * d.length + r := by
  have hlen := congrArg List.length h
  rwa [length_decoderBits, List.length_append, length_flatMap_bitString, List.length_replicate] at hlen

theorem decoderBits_eq_take_append_trailingBits (vs : List SymbolValue) :
    decoderBits vs = (decoderBits vs).take (8 * byteCount vs.length) ++ trailingBits vs :=
  (List.take_append_drop _ _).symm

theorem slice_take {α : Type} {t : List α} {i k m : Nat} (h : i + k ≤ m) : slice (t.take m) i k = slice t i k := by
  rw [slice, List.drop_take, List.take_take, Nat.min_eq_left (by omega), slice]

/-- Step 3 cuts the bytes whose bits the symbols' bits begin with. -/
theorem map_decodedByte_eq_take {vs : List SymbolValue} {bs : List Byte} (hlen : byteCount vs.length ≤ bs.length)
    (hbits : (decoderBits vs).take (8 * byteCount vs.length) = (bs.flatMap bitString).take (8 * byteCount vs.length)) :
    (List.range (byteCount vs.length)).map (decodedByte vs) = bs.take (byteCount vs.length) := by
  refine List.ext_getElem (by simpa using hlen) fun i hi hi' => ?_
  have hlt : i < byteCount vs.length := by simpa using hi
  have hslice : slice (decoderBits vs) (8 * i) 8 = bitString bs[i] := by
    rw [← slice_take (m := 8 * byteCount vs.length) (by omega), hbits, slice_take (by omega),
      slice_flatMap_bitString bs i (by omega)]
  rw [List.getElem_map, List.getElem_range, List.getElem_take, decodedByte, hslice, ofNat_num_bitString]

theorem bitsToBytes_of_trailing_one {vs : List SymbolValue} (h : ∃ b ∈ trailingBits vs, b = true) :
    bitsToBytes vs = .error .invalidPadding := by
  refine if_pos fun hzero => ?_
  obtain ⟨b, hb, rfl⟩ := h
  cases num_eq_zero.1 hzero _ hb

theorem bitsToBytes_of_trailing_zero {vs : List SymbolValue} (h : ∀ b ∈ trailingBits vs, b = false) :
    bitsToBytes vs = .ok ((List.range (byteCount vs.length)).map (decodedByte vs)) :=
  if_neg (not_not.2 (num_eq_zero.2 h))

/-- Step 3 answers the bytes whose bits, and fewer than eight zero bits after them, are the symbols' bits. -/
theorem bitsToBytes_eq_ok_iff (vs : List SymbolValue) (d : List Byte) :
    bitsToBytes vs = .ok d ↔ ∃ r < 8, decoderBits vs = d.flatMap bitString ++ List.replicate r false := by
  constructor
  · intro h
    obtain ⟨hzero, rfl⟩ := bitsToBytes_ok h
    have hlen : (trailingBits vs).length < 8 := by
      rw [trailingBits, List.length_drop, length_decoderBits, byteCount]
      omega
    refine ⟨_, hlen, ?_⟩
    rw [flatMap_decodedByte, ← List.eq_replicate_iff.2 ⟨rfl, num_eq_zero.1 hzero⟩]
    exact decoderBits_eq_take_append_trailingBits vs
  · rintro ⟨r, hr, hbits⟩
    have hlen := length_of_decoderBits_eq_append hbits
    have hcount : byteCount vs.length = d.length := by
      rw [byteCount]
      omega
    have hdata : (d.flatMap bitString).length = 8 * byteCount vs.length := by
      rw [length_flatMap_bitString, hcount]
    have htrailing : trailingBits vs = List.replicate r false := by
      rw [trailingBits, hbits, List.drop_left' hdata]
    rw [bitsToBytes_of_trailing_zero fun b hb => List.eq_of_mem_replicate (htrailing ▸ hb),
      map_decodedByte_eq_take hcount.le (by rw [hbits, List.take_left' hdata, List.take_of_length_le hdata.le]),
      hcount, List.take_length]

/-! ## The padding run and the body (R46, R47) -/

theorem length_rtakeWhile_padChar (s : List Byte) : (s.rtakeWhile fun c => c == padChar).length = padRun s := by
  rw [List.rtakeWhile, List.length_reverse, padRun]

theorem body_eq_rdropWhile (s : List Byte) : body s = s.rdropWhile fun c => c == padChar := by
  have hsplit := List.rdropWhile_append_rtakeWhile (l := s) (p := fun c => c == padChar)
  have hlen := congrArg List.length hsplit
  rw [List.length_append, length_rtakeWhile_padChar] at hlen
  calc
    body s = s.take (s.rdropWhile fun c => c == padChar).length := by rw [body, ← hlen, Nat.add_sub_cancel]
    _ = ((s.rdropWhile fun c => c == padChar) ++ s.rtakeWhile fun c => c == padChar).take
        (s.rdropWhile fun c => c == padChar).length := by rw [hsplit]
    _ = s.rdropWhile fun c => c == padChar := List.take_left

theorem body_append_padding (s : List Byte) : body s ++ List.replicate (padRun s) padChar = s := by
  have hpad : s.rtakeWhile (fun c => c == padChar) = List.replicate (padRun s) padChar :=
    List.eq_replicate_iff.2 ⟨length_rtakeWhile_padChar s, fun c hc => by simpa using List.mem_rtakeWhile_imp hc⟩
  rw [← hpad, body_eq_rdropWhile, List.rdropWhile_append_rtakeWhile]

theorem body_append_replicate {cs : List Byte} (p : Nat) (h : ∀ c ∈ cs, c ≠ padChar) :
    body (cs ++ List.replicate p padChar) = cs := by
  rw [body, padRun_append_replicate cs p h, List.length_append, List.length_replicate, Nat.add_sub_cancel,
    List.take_left]

theorem getElem?_padding {s : List Byte} {i : Nat} (hi : s.length - padRun s ≤ i) (hlt : i < s.length) :
    s[i]? = some padChar := by
  have hrun := padRun_le s
  calc
    s[i]? = (body s ++ List.replicate (padRun s) padChar)[i]? := by rw [body_append_padding]
    _ = some padChar := by
      rw [List.getElem?_append_right (by rwa [length_body]), List.getElem?_replicate_of_lt (by
        rw [length_body]
        omega)]

theorem getLast?_body_ne_padChar (s : List Byte) : (body s).getLast? ≠ some padChar := by
  rw [body_eq_rdropWhile]
  intro h
  have hne : s.rdropWhile (fun c => c == padChar) ≠ [] := by
    intro hnil
    simp [hnil] at h
  have hlast := List.rdropWhile_last_not _ s hne
  rw [List.getLast?_eq_some_getLast hne, Option.some_inj] at h
  simp [h] at hlast

theorem b32dec_of_padRun_not_mem {s : List Byte} (h : padRun s ∉ [0, 1, 3, 4, 6]) :
    b32dec s = .error .invalidPadding :=
  if_neg fun hallowed => h ((padRunAllowed_iff _).1 hallowed)

theorem b32dec_of_symbolValues {s : List Byte} {vs : List SymbolValue} (hrun : padRun s ∈ [0, 1, 3, 4, 6])
    (hvs : symbolValues (body s) = some vs) : b32dec s = bitsToBytes vs := by
  rw [b32dec, if_pos ((padRunAllowed_iff _).2 hrun), hvs]

theorem b32dec_of_symbolValues_none {s : List Byte} (hrun : padRun s ∈ [0, 1, 3, 4, 6])
    (hvs : symbolValues (body s) = none) : b32dec s = .error .invalidAlphabet := by
  rw [b32dec, if_pos ((padRunAllowed_iff _).2 hrun), hvs]

theorem bitsToBytes_ne_invalidAlphabet (vs : List SymbolValue) : bitsToBytes vs ≠ .error .invalidAlphabet := by
  rw [bitsToBytes]
  split <;> simp

/-- Settles O40: the text is its body and its run, and the run took every `=` it could. -/
theorem paddingRunIsMaximal : Obligations.PaddingRunIsMaximal := by
  refine ⟨fun s => ⟨padRun_le s, fun i => getElem?_padding, fun hlt => ?_, b32dec_of_padRun_not_mem⟩, fun n => ?_⟩
  · have hlast := getLast?_body_ne_padChar s
    rwa [List.getLast?_eq_getElem?, length_body, body, List.getElem?_take_of_lt (by omega),
      Nat.sub_right_comm] at hlast
  · exact padRun_append_replicate [] n (by simp)

/-- Settles O41: step 2 is the only step that answers `InvalidAlphabet`. -/
theorem bodyOutsideTheAlphabet : Obligations.BodyOutsideTheAlphabet := by
  intro s hrun
  have hnone : b32dec s = .error .invalidAlphabet ↔ symbolValues (body s) = none := by
    refine ⟨fun h => ?_, b32dec_of_symbolValues_none hrun⟩
    cases hvs : symbolValues (body s) with
    | none => rfl
    | some vs => exact absurd ((b32dec_of_symbolValues hrun hvs).symm.trans h) (bitsToBytes_ne_invalidAlphabet vs)
  rw [hnone, symbolValues_eq_none]
  exact exists_congr fun c => and_congr_right fun _ => val_eq_none_iff c

/-- Settles O42: the two ends of step 3, on the values of the body. -/
theorem symbolBitsBecomeBytes : Obligations.SymbolBitsBecomeBytes := by
  intro s vs hrun hbody
  rw [b32dec_of_symbolValues hrun ((symbolValues_eq_some _ vs).2 hbody)]
  refine ⟨bitsToBytes_of_trailing_one, fun hzero => ⟨_, bitsToBytes_of_trailing_zero hzero, ?_, ?_⟩⟩
  · rw [List.length_map, List.length_range, byteCount]
  · exact flatMap_decodedByte vs

/-! ## Decoding what the encoder wrote (R54), and any other padding (R52) -/

/-- The decoder strips a permitted run, whatever symbols stand before it. -/
theorem b32dec_map_sym_append (vs : List SymbolValue) {t : Nat} (ht : t ∈ [0, 1, 3, 4, 6]) :
    b32dec (vs.map sym ++ List.replicate t padChar) = bitsToBytes vs := by
  have hdata : ∀ c ∈ vs.map sym, c ≠ padChar := by
    intro c hc
    obtain ⟨v, -, rfl⟩ := List.mem_map.1 hc
    exact sym_ne_padChar v
  refine b32dec_of_symbolValues ?_ ?_
  · rwa [padRun_append_replicate _ t hdata]
  · rw [body_append_replicate t hdata, symbolValues_map_sym]

theorem bitsToBytes_encodedValues (b : List Byte) : bitsToBytes (encodedValues b) = .ok b := by
  refine (bitsToBytes_eq_ok_iff _ _).2 ⟨zeroFill b.length, ?_, decoderBits_encodedValues b⟩
  rw [zeroFill]
  omega

/-- Settles O34: the decoder strips the encoder's padding, and the zero fill is dropped as zero trailing bits. -/
theorem decodeInvertsEncode : Obligations.DecodeInvertsEncode := fun b => by
  rw [b32enc_eq, b32dec_map_sym_append _ (padCount_mem b.length), bitsToBytes_encodedValues]

theorem decoderBits_replicate_zero (j : Nat) :
    decoderBits (List.replicate j 0) = List.replicate (5 * j) false := by
  induction j with
  | zero => rfl
  | succ j ih =>
    rw [List.replicate_succ', decoderBits_append, ih, Nat.mul_succ, List.replicate_add]
    rfl

/-- Symbols that decode are the encoder's symbols of what they decode to, then symbols of value 0. -/
theorem eq_encodedValues_append_zeros {vs : List SymbolValue} {d : List Byte} (h : bitsToBytes vs = .ok d) :
    ∃ j, vs = encodedValues d ++ List.replicate j 0 := by
  obtain ⟨r, -, hbits⟩ := (bitsToBytes_eq_ok_iff vs d).1 h
  have hlen := length_of_decoderBits_eq_append hbits
  have hfill : zeroFill d.length + 5 * (vs.length - symbolCount d.length) = r := by
    rw [zeroFill, symbolCount]
    omega
  refine ⟨vs.length - symbolCount d.length, decoderBits_injective ?_⟩
  rw [decoderBits_append, decoderBits_encodedValues, decoderBits_replicate_zero, encoderBits, List.append_assoc,
    ← List.replicate_add, hfill, hbits]

/-- The symbols that an encoded text begins with. -/
theorem take_symbolCount_append (d zs : List Byte) :
    ((encodedValues d).map sym ++ zs).take (symbolCount d.length) = (encodedValues d).map sym :=
  List.take_left' (by rw [List.length_map, length_encodedValues])

/-- Settles O44: the run is stripped whatever the symbols, and the symbols are the encoder's up to zero symbols. -/
theorem paddingIsNotMatchedAgainstTheSymbols : Obligations.PaddingIsNotMatchedAgainstTheSymbols := by
  refine ⟨fun vs t => b32dec_map_sym_append vs, fun vs d h => ?_, by decide, by decide, by decide, by decide⟩
  obtain ⟨j, rfl⟩ := eq_encodedValues_append_zeros h
  refine ⟨?_, fun v hv => ?_⟩
  · rw [b32enc_eq, List.map_append]
    exact (take_symbolCount_append d _).trans (take_symbolCount_append d _).symm
  · have hdrop := List.drop_left' (l₂ := List.replicate j (0 : SymbolValue)) (length_encodedValues d)
    exact List.eq_of_mem_replicate (hdrop ▸ hv)

/-! ## The form by groups of eight symbols (R51) -/

/-- The shifts and masks of R51 cut the 40 bits of eight symbols into five bytes. -/
theorem decoderBits_groupBytes (s0 s1 s2 s3 s4 s5 s6 s7 : SymbolValue) :
    decoderBits [s0, s1, s2, s3, s4, s5, s6, s7] = (groupBytes s0 s1 s2 s3 s4 s5 s6 s7).flatMap bitString := by
  simp [groupBytes, decoderBits, bitString, List.range_succ, BitVec.getMsbD]

theorem trailingBits_append_of_bits {us : List SymbolValue} {bs : List Byte}
    (h : decoderBits us = bs.flatMap bitString) (vs : List SymbolValue) :
    trailingBits (us ++ vs) = trailingBits vs := by
  have hlen := length_of_decoderBits_eq h
  have hcount : 8 * byteCount (us ++ vs).length = (decoderBits us).length + 8 * byteCount vs.length := by
    rw [byteCount, byteCount, length_decoderBits, List.length_append]
    omega
  rw [trailingBits, hcount, decoderBits_append, List.drop_length_add_append, trailingBits]

/-- Symbols that spell whole bytes come out in front of what the symbols after them give. -/
theorem bitsToBytes_append_of_bits {us : List SymbolValue} {bs : List Byte}
    (h : decoderBits us = bs.flatMap bitString) (vs : List SymbolValue) :
    bitsToBytes (us ++ vs) = (bitsToBytes vs).map (bs ++ ·) := by
  have htrailing := trailingBits_append_of_bits h vs
  by_cases hzero : ∀ b ∈ trailingBits vs, b = false
  · have hvs := bitsToBytes_of_trailing_zero hzero
    obtain ⟨r, hr, hbits⟩ := (bitsToBytes_eq_ok_iff vs _).1 hvs
    rw [hvs]
    refine (bitsToBytes_eq_ok_iff _ _).2 ⟨r, hr, ?_⟩
    rw [decoderBits_append, h, hbits, List.flatMap_append, List.append_assoc]
  · have hone : ∃ b ∈ trailingBits vs, b = true := by simpa using hzero
    rw [bitsToBytes_of_trailing_one hone, bitsToBytes_of_trailing_one (htrailing ▸ hone)]
    rfl

/-- The decoder's test `z` of the bits `t`: it answers true if no bit of them is 1. -/
def TestsZero (z : Bool) (t : List Bool) : Prop := z = true ↔ ∀ b ∈ t, b = false

theorem TestsZero.append {z z' : Bool} {t t' : List Bool} (h : TestsZero z t) (h' : TestsZero z' t') :
    TestsZero (z && z') (t ++ t') := by
  rw [TestsZero, Bool.and_eq_true, List.forall_mem_append]
  exact and_congr h h'

theorem testsZero_symbol (v : SymbolValue) : TestsZero (v == 0) (bitString v) := by
  rw [TestsZero, beq_iff_eq, ← num_eq_zero, num_bitString]
  exact BitVec.toNat_inj.symm

/-- A mask of the low `r` bits of a symbol tests its last `r` bits. -/
theorem testsZero_lowBits (v : SymbolValue) {r : Nat} (hr : r < 5) :
    TestsZero (v &&& BitVec.ofNat 5 (2 ^ r - 1) == 0) ((bitString v).drop (5 - r)) := by
  have htable : ∀ r < 5, ∀ v : SymbolValue,
      (v &&& BitVec.ofNat 5 (2 ^ r - 1) == 0) = true ↔ ∀ b ∈ (bitString v).drop (5 - r), b = false := by decide
  exact htable r hr v

/-- Where the trailing bits begin in the symbol `v`, they are its last `r` bits and the bits of the symbols after it. -/
theorem trailingBits_append_cons {us ws : List SymbolValue} {r : Nat} (v : SymbolValue) (hr : r ≤ 5)
    (h : 8 * byteCount (us.length + (ws.length + 1)) + r = 5 * (us.length + 1)) :
    trailingBits (us ++ v :: ws) = (bitString v).drop (5 - r) ++ decoderBits ws := by
  have hstart : 8 * byteCount (us ++ v :: ws).length = (decoderBits us).length + (5 - r) := by
    rw [length_decoderBits, List.length_append, List.length_cons]
    omega
  rw [trailingBits, hstart, decoderBits_append, decoderBits_cons, List.drop_length_add_append,
    List.drop_append_of_le_length (by rw [length_bitString]; omega)]

/-- R51's rows whose trailing bits are low bits of the last symbol. -/
theorem testsZero_trailing_of_last {us : List SymbolValue} {n r : Nat} (v : SymbolValue) (hn : us.length = n)
    (h : r < 5 ∧ 8 * byteCount (n + 1) + r = 5 * (n + 1)) :
    TestsZero (v &&& BitVec.ofNat 5 (2 ^ r - 1) == 0) (trailingBits (us ++ [v])) := by
  subst hn
  rw [trailingBits_append_cons v h.1.le h.2, decoderBits_nil, List.append_nil]
  exact testsZero_lowBits v h.1

/-- R51's rows whose trailing bits are low bits of the last symbol but one, and the last symbol. -/
theorem testsZero_trailing_of_lastTwo {us : List SymbolValue} {n r : Nat} (v w : SymbolValue) (hn : us.length = n)
    (h : r < 5 ∧ 8 * byteCount (n + 2) + r = 5 * (n + 1)) :
    TestsZero (v &&& BitVec.ofNat 5 (2 ^ r - 1) == 0 && w == 0) (trailingBits (us ++ [v, w])) := by
  subst hn
  rw [trailingBits_append_cons v h.1.le h.2, decoderBits_cons, decoderBits_nil, List.append_nil]
  exact (testsZero_lowBits v h.1).append (testsZero_symbol w)

/-- A last group of `k` symbols, completed with zero symbols to the bytes `bs`, gives the first of them if its trailing
bits are 0. -/
theorem lastBytes_eq_bitsToBytes {vs : List SymbolValue} {bs : List Byte} {z : Bool} (k j : Nat)
    (hk : vs.length = k) (h : decoderBits (vs ++ List.replicate j 0) = bs.flatMap bitString)
    (hz : TestsZero z (trailingBits vs)) : lastBytes (byteCount k) z bs = bitsToBytes vs := by
  subst hk
  have hlen := length_of_decoderBits_eq h
  rw [List.length_append] at hlen
  have hfits : byteCount vs.length ≤ bs.length := by
    rw [byteCount]
    omega
  have hbegin : 8 * byteCount vs.length ≤ (decoderBits vs).length := by
    rw [length_decoderBits, byteCount]
    omega
  cases z with
  | true =>
    rw [bitsToBytes_of_trailing_zero (hz.1 rfl),
      map_decodedByte_eq_take hfits (by rw [← h, decoderBits_append, List.take_append_of_le_length hbegin])]
    rfl
  | false =>
    rw [bitsToBytes_of_trailing_one (by simpa [TestsZero] using hz)]
    rfl

theorem bitsToBytesGroups_group (s0 s1 s2 s3 s4 s5 s6 s7 : SymbolValue) (rest : List SymbolValue) :
    bitsToBytesGroups (s0 :: s1 :: s2 :: s3 :: s4 :: s5 :: s6 :: s7 :: rest) =
      (bitsToBytesGroups rest).map (groupBytes s0 s1 s2 s3 s4 s5 s6 s7 ++ ·) := by
  rw [bitsToBytesGroups]
  cases bitsToBytesGroups rest <;> rfl

theorem bitsToBytes_group (s0 s1 s2 s3 s4 s5 s6 s7 : SymbolValue) (rest : List SymbolValue) :
    bitsToBytes (s0 :: s1 :: s2 :: s3 :: s4 :: s5 :: s6 :: s7 :: rest) =
      (bitsToBytes rest).map (groupBytes s0 s1 s2 s3 s4 s5 s6 s7 ++ ·) :=
  bitsToBytes_append_of_bits (decoderBits_groupBytes s0 s1 s2 s3 s4 s5 s6 s7) rest

/-- Settles O38, by induction on the groups of eight symbols; each last group meets its row of R51's table. -/
theorem decoderByGroupsIsTheDecoder : Obligations.DecoderByGroupsIsTheDecoder := by
  intro vs
  induction vs using bitsToBytesGroups.induct with
  | case1 => rfl
  | case2 s0 =>
    have hz : TestsZero (s0 == 0) (trailingBits [s0]) := by
      simpa [trailingBits, decoderBits, byteCount] using testsZero_symbol s0
    exact lastBytes_eq_bitsToBytes 1 7 rfl (decoderBits_groupBytes s0 0 0 0 0 0 0 0) hz
  | case3 s0 s1 =>
    have hz := testsZero_trailing_of_last (us := [s0]) (n := 1) (r := 2) s1 rfl (by decide)
    exact lastBytes_eq_bitsToBytes 2 6 rfl (decoderBits_groupBytes s0 s1 0 0 0 0 0 0) hz
  | case4 s0 s1 s2 =>
    have hz := testsZero_trailing_of_lastTwo (us := [s0]) (n := 1) (r := 2) s1 s2 rfl (by decide)
    exact lastBytes_eq_bitsToBytes 3 5 rfl (decoderBits_groupBytes s0 s1 s2 0 0 0 0 0) hz
  | case5 s0 s1 s2 s3 =>
    have hz := testsZero_trailing_of_last (us := [s0, s1, s2]) (n := 3) (r := 4) s3 rfl (by decide)
    exact lastBytes_eq_bitsToBytes 4 4 rfl (decoderBits_groupBytes s0 s1 s2 s3 0 0 0 0) hz
  | case6 s0 s1 s2 s3 s4 =>
    have hz := testsZero_trailing_of_last (us := [s0, s1, s2, s3]) (n := 4) (r := 1) s4 rfl (by decide)
    exact lastBytes_eq_bitsToBytes 5 3 rfl (decoderBits_groupBytes s0 s1 s2 s3 s4 0 0 0) hz
  | case7 s0 s1 s2 s3 s4 s5 =>
    have hz := testsZero_trailing_of_lastTwo (us := [s0, s1, s2, s3]) (n := 4) (r := 1) s4 s5 rfl (by decide)
    exact lastBytes_eq_bitsToBytes 6 2 rfl (decoderBits_groupBytes s0 s1 s2 s3 s4 s5 0 0) hz
  | case8 s0 s1 s2 s3 s4 s5 s6 =>
    have hz := testsZero_trailing_of_last (us := [s0, s1, s2, s3, s4, s5]) (n := 6) (r := 3) s6 rfl (by decide)
    exact lastBytes_eq_bitsToBytes 7 1 rfl (decoderBits_groupBytes s0 s1 s2 s3 s4 s5 s6 0) hz
  | case9 s0 s1 s2 s3 s4 s5 s6 s7 rest _ _ ih
  | case10 s0 s1 s2 s3 s4 s5 s6 s7 rest _ _ ih => rw [bitsToBytesGroups_group, ih, bitsToBytes_group]

/-! ## DEC (R49, R53) -/

/-- Settles O11: DEC completes with the bytes, whose length fits `OBUF` and so `OLEN`, or raises the error. -/
theorem decWritesTheBytesOrAnError : Obligations.DecWritesTheBytesOrAnError := by
  refine ⟨rfl, fun s d hc hl hd => ?_, fun s hl he => exec_dec_of_error (Nat.not_lt.2 hl) he,
    fun s hl he => exec_dec_of_error (Nat.not_lt.2 hl) he, fun s hl => exec_of_lengthError (i := .dec) hl,
    by decide, by decide⟩
  have hexec := exec_dec_of_ok (Nat.not_lt.2 hl) hd
  have hlen : d.length = 5 * (s.lenA.toNat - padRun (operandA s)) / 8 := by
    rw [length_of_b32dec_ok (s := operandA s) hd, length_operandA]
  have hmax : d.length ≤ 5 * s.config.maxLen / 8 := by omega
  have hcap : d.length < ocap s.config := by
    have hmin := ((config_wf_iff _).1 hc).1
    rw [ocap]
    omega
  obtain ⟨holen, hread, htail, -⟩ := completeWithString_output d s
    (lt_of_lt_of_le hcap ((ocap_le hc).trans (by norm_num)))
  obtain ⟨hinputs, -, -⟩ := commandsLeaveTheOperandsAlone.1 .dec s _ hexec
  rw [← holen] at hread htail hmax hcap
  exact ⟨_, hexec, rfl, rfl, holen, hlen, hmax, hcap, hread, htail, rfl, rfl, hinputs⟩

/-- Settles O43: the empty operand decodes to no byte, so DEC completes with cleared outputs. -/
theorem emptyTextDecodesToNothing : Obligations.EmptyTextDecodesToNothing := by
  refine ⟨rfl, fun s hs => ?_⟩
  have hfits : ¬ lengthError .dec s := by simp [lengthError, hs]
  have hempty : operandA s = [] := by
    rw [operandA, hs]
    rfl
  exact exec_dec_of_ok (d := []) hfits (by rw [hempty]; rfl)

/-! ## The round trip on the block (R54) -/

/-- After the host's copy the operand is what `OBUF` held. -/
theorem operandA_copyOutputToA {s : State} (h : s.ibufA.wf) :
    operandA s.copyOutputToA = s.obuf.readBytes 0 s.olen.toNat := by
  have hread := Memory.readBytes_writeBytes h 0 (s.obuf.readBytes 0 s.olen.toNat)
  rwa [Memory.length_readBytes] at hread

/-- DEC after the host's copy of an encoded text that fits the input buffer. -/
theorem exec_dec_copyOutputToA {s : State} {b : List Byte} (hwf : s.ibufA.wf)
    (hfits : s.olen.toNat ≤ s.config.maxLen) (htext : s.obuf.readBytes 0 s.olen.toNat = b32enc b) :
    exec .dec s.copyOutputToA = .next (completeWithString b s.copyOutputToA) :=
  exec_dec_of_ok (Nat.not_lt.2 hfits) (by rw [operandA_copyOutputToA hwf, htext, decodeInvertsEncode])

/-- Settles O35: ENC leaves the text in `OBUF`, and DEC of its copy gives the operand back. The text `A` decodes to no
byte, whose encoding is empty; and a text that the encoder wrote has its length and padding. -/
theorem roundTripOnTheBlock : Obligations.RoundTripOnTheBlock := by
  refine ⟨decodeInvertsEncode, fun s hs hfits => ?_, ⟨[0x41], [], by decide, by decide⟩, ?_⟩
  · obtain ⟨-, hencodes, -, -⟩ := encWritesTheBase32Text
    obtain ⟨t, henc, -, -, htlen, htext, -⟩ := hencodes s hs.config_wf (by omega)
    obtain ⟨⟨-, -, -, -, hconfig, -⟩, hibufA, -⟩ := commandsLeaveTheOperandsAlone.1 .enc s t henc
    have hdec := exec_dec_copyOutputToA (hibufA ▸ hs.ibufA_wf) (by rwa [hconfig, htlen]) htext
    obtain ⟨hulen, hread, -, -⟩ := completeWithString_output (operandA s) t.copyOutputToA
      (by rw [length_operandA]; exact s.lenA.isLt)
    rw [← hulen] at hread
    exact ⟨t, _, henc, hdec, rfl, rfl, BitVec.eq_of_toNat_eq (hulen.trans (length_operandA s)), hread⟩
  · rintro _ d - rfl
    exact ⟨⟨_, length_b32enc d⟩, by rw [padRun_b32enc, padCount_table]⟩

end Sys2Proof.Machine

/-!
# TRUNC (spec 42): the offset, the window, the 31-bit value

SUPPORT. Proofs of the statements O12, O45 and O46.
-/

namespace Sys2Proof.Machine

/-! ## The function in arithmetic (R55) -/

/-- The mask of the low `n` bits of a byte is a remainder. -/
theorem toNat_and_lowMask (b : Byte) {n : Nat} (hn : n ≤ 8) :
    (b &&& BitVec.ofNat 8 (2 ^ n - 1)).toNat = b.toNat % 2 ^ n := by
  have hpow : 2 ^ n ≤ 2 ^ 8 := Nat.pow_le_pow_right two_pos hn
  rw [BitVec.toNat_and, BitVec.toNat_ofNat, Nat.mod_eq_of_lt (by omega), Nat.and_two_pow_sub_one_eq_mod]

theorem toNat_dtOffset (d : List Byte) : (dtOffset d).toNat = (byteAt d 19).toNat % 16 := by
  have hmask : (byteAt d 19 &&& 0x0F).toNat = (byteAt d 19).toNat % 16 := toNat_and_lowMask _ (n := 4) (by decide)
  rw [dtOffset, BitVec.toNat_setWidth, hmask, Nat.mod_mod]

/-- The window is the four bytes from the offset, one after the other: bit by bit, each of the 32 bits comes from the
one byte whose range it lies in. -/
theorem dtWindow_eq_append (d : List Byte) :
    dtWindow d = (byteAt d (dtOffset d).toNat ++ byteAt d ((dtOffset d).toNat + 1) ++
      byteAt d ((dtOffset d).toNat + 2) ++ byteAt d ((dtOffset d).toNat + 3) : BitVec 32) := by
  apply BitVec.eq_of_getLsbD_eq
  intro i hi
  simp only [dtWindow, BitVec.getLsbD_or, BitVec.getLsbD_shiftLeft, BitVec.zeroExtend_eq_setWidth,
    BitVec.getLsbD_setWidth, BitVec.getLsbD_append]
  grind

/-- A byte after a bit string is one more digit in base 256. -/
theorem toNat_append_byte {n : Nat} (x : BitVec n) (b : Byte) : (x ++ b).toNat = x.toNat * 2 ^ 8 + b.toNat := by
  rw [BitVec.toNat_append, ← Nat.shiftLeft_add_eq_or_of_lt b.isLt, Nat.shiftLeft_eq]

theorem toNat_dtWindow (d : List Byte) :
    (dtWindow d).toNat =
      (byteAt d (dtOffset d).toNat).toNat * 2 ^ 24 + (byteAt d ((dtOffset d).toNat + 1)).toNat * 2 ^ 16 +
        (byteAt d ((dtOffset d).toNat + 2)).toNat * 2 ^ 8 + (byteAt d ((dtOffset d).toNat + 3)).toNat := by
  rw [dtWindow_eq_append, toNat_append_byte, toNat_append_byte, toNat_append_byte]
  ring

theorem toNat_dtValue (d : List Byte) : (dtValue d).toNat = (dtWindow d).toNat % 2 ^ 31 := by
  rw [dtValue, BitVec.toNat_and]
  exact Nat.and_two_pow_sub_one_eq_mod _ 31

/-- Settles O45: the masks are remainders, and the shifted bytes lie in disjoint bit ranges of the window. -/
theorem truncationIsTheMaskedBigEndianWindow : Obligations.TruncationIsTheMaskedBigEndianWindow := fun d _ =>
  ⟨toNat_dtOffset d, by rw [dt, toNat_dtValue, toNat_dtWindow]⟩

/-! ## What the result depends on (R57) -/

/-- The top bit of the window's first byte is the bit that the mask of R55 clears. -/
theorem dtValue_congr {d d' : List Byte} (ho : dtOffset d = dtOffset d')
    (hfirst : byteAt d (dtOffset d).toNat &&& 0x7F = byteAt d' (dtOffset d).toNat &&& 0x7F)
    (hrest : ∀ k, 0 < k → k < 4 → byteAt d ((dtOffset d).toNat + k) = byteAt d' ((dtOffset d).toNat + k)) :
    dtValue d = dtValue d' := by
  have hlow : (byteAt d (dtOffset d).toNat).toNat % 2 ^ 7 = (byteAt d' (dtOffset d).toNat).toNat % 2 ^ 7 := by
    rw [← toNat_and_lowMask _ (by decide), ← toNat_and_lowMask _ (by decide)]
    exact congrArg BitVec.toNat hfirst
  apply BitVec.eq_of_toNat_eq
  rw [toNat_dtValue, toNat_dtValue, toNat_dtWindow, toNat_dtWindow, ← ho, hrest 1 (by decide) (by decide),
    hrest 2 (by decide) (by decide), hrest 3 (by decide) (by decide)]
  omega

/-- The low nibble of the last byte, the low seven bits of the window's first byte and the other three bytes of the
window decide the result. -/
theorem dt_congr {d d' : List Byte} (hlast : byteAt d 19 &&& 0x0F = byteAt d' 19 &&& 0x0F)
    (hfirst : byteAt d (dtOffset d).toNat &&& 0x7F = byteAt d' (dtOffset d).toNat &&& 0x7F)
    (hrest : ∀ k, 0 < k → k < 4 → byteAt d ((dtOffset d).toNat + k) = byteAt d' ((dtOffset d).toNat + k)) :
    dt d = dt d' := by
  have ho : dtOffset d = dtOffset d' := by rw [dtOffset, dtOffset, hlast]
  exact Prod.ext ho (dtValue_congr ho hfirst hrest)

theorem dtOffset_le (d : List Byte) : (dtOffset d).toNat ≤ 15 :=
  Nat.le_of_lt_succ (dtOffset d).isLt

/-- The hypotheses of `dt_congr` are met by digests that differ outside the five bytes. -/
theorem dt_congr_witness :
    byteAt (List.replicate 20 0x05) 19 = byteAt ((List.replicate 20 0x05).set 0 0xFF) 19 ∧
    (∀ k, k < 4 → byteAt (List.replicate 20 0x05) ((dtOffset (List.replicate 20 0x05)).toNat + k) =
      byteAt ((List.replicate 20 0x05).set 0 0xFF) ((dtOffset (List.replicate 20 0x05)).toNat + k)) ∧
    List.replicate 20 (0x05 : Byte) ≠ (List.replicate 20 0x05).set 0 0xFF := by decide

/-- Settles O46: the offset has four bits, so the window ends before the last byte; the rest is `dt_congr`. -/
theorem truncationRanges : Obligations.TruncationRanges := by
  refine ⟨fun d _ => ⟨dtOffset_le d, Nat.add_le_add_right (dtOffset_le d) 3, dtValue_le d⟩,
    fun d d' _ _ hlast hwindow => ?_, fun d d' _ _ hbelow hlast => ?_, fun d d' _ _ hother hfirst => ?_⟩
  · exact dt_congr (congrArg (· &&& 0x0F) hlast) (congrArg (· &&& 0x7F) (hwindow 0 (by decide)))
      fun k _ hk => hwindow k hk
  · have ho := dtOffset_le d
    exact dt_congr hlast (congrArg (· &&& 0x7F) (hbelow _ (by omega))) fun k _ hk => hbelow _ (by omega)
  · have ho : (dt d).1.toNat ≤ 15 := dtOffset_le d
    exact dt_congr (congrArg (· &&& 0x0F) (hother 19 (by decide) (by omega))) hfirst fun k hpos hk =>
      hother ((dt d).1.toNat + k) (by omega) (by omega)

/-! ## TRUNC (R56) -/

/-- Bit 31 of `RES` is 0 after every command (R12). -/
theorem exec_res_bit31 (i : Instr) (s : State) : ∃ t, exec i s = .next t ∧ t.res.getLsbD 31 = false := by
  obtain ⟨t, ht, -, -, -, hres, -⟩ := outputsOfEachCommand i s
  exact ⟨t, ht, Nat.testBit_lt_two_pow (by omega)⟩

/-- Settles O12: TRUNC completes with `dt` of the digest unless the length is not 20. -/
theorem truncWritesOffsetAndValue : Obligations.TruncWritesOffsetAndValue :=
  ⟨rfl, fun _ hl => exec_trunc_of_fits (not_not.2 hl), fun _ hl => exec_of_lengthError (i := .trunc) hl,
    by decide, by decide, by decide, exec_res_bit31⟩

end Sys2Proof.Machine

/-!
# CMP (spec 43): equality of byte strings, and the operations inside

SUPPORT. Proofs of the statements O13, O47 and O48.
-/

namespace Sys2Proof.Machine

/-! ## The comparator is equality (R58) -/

/-- On strings of one length the accumulator ends as 0 exactly if it began as 0 and every pair agrees: an OR is 0 only
if both sides are, and an XOR only if they are equal. -/
theorem tseqAcc_eq_zero_iff {a b : List Byte} (hlen : a.length = b.length) (acc : Byte) :
    tseqAcc acc a b = 0 ↔ acc = 0 ∧ a = b := by
  induction a generalizing b acc with
  | nil =>
    obtain rfl := List.length_eq_zero_iff.1 hlen.symm
    simp [tseqAcc]
  | cons x xs ih =>
    cases b with
    | nil => cases hlen
    | cons y ys =>
      have hpair : acc ||| (x ^^^ y) = 0 ↔ acc = 0 ∧ x = y := by
        simp [BitVec.or_eq_zero_iff, BitVec.xor_eq_zero_iff]
      rw [tseqAcc, ih (Nat.succ.inj hlen), hpair, List.cons.injEq, and_assoc]

theorem tseq_eq_ite (a b : List Byte) : tseq a b = if a = b then 1 else 0 := by
  by_cases hlen : a.length = b.length
  · simp only [tseq, hlen, ne_eq, not_true, if_false, tseqAcc_eq_zero_iff hlen, true_and]
  · rw [tseq, if_pos hlen, if_neg fun h => hlen (congrArg List.length h)]

/-- Settles O47: each part is read off `tseq_eq_ite`. -/
theorem comparatorIsEquality : Obligations.ComparatorIsEquality := by
  refine ⟨fun a b => ⟨?_, fun hne => ?_, ?_⟩, rfl⟩
  · rw [tseq_eq_ite]
    by_cases h : a = b <;> simp [h]
  · rw [tseq_eq_ite, if_neg hne]
  · simp only [tseq_eq_ite, eq_comm]

/-! ## The operations of the comparator (R59) -/

/-- What the loop does for one pair. -/
def pairEvents (i : Nat) : List CmpEvent := [.readA i, .readB i, .xorStep, .orStep]

/-- The loop performs the operations of its pairs in order, whatever the bytes. -/
theorem cmpLoop_events (a b : Memory) (k i : Nat) (acc : Byte) :
    (cmpLoop a b k i acc).2 = (List.range' i k).flatMap pairEvents := by
  induction k generalizing i acc with
  | zero => rfl
  | succ k ih =>
    rw [List.range'_succ, List.flatMap_cons, ← ih (i + 1) (acc ||| (a.read i ^^^ b.read i))]
    rfl

theorem cmpRun_events_of_lenA_eq_lenB {s : State} (h : s.lenA = s.lenB) :
    (cmpRun s).2 = (List.range s.lenA.toNat).flatMap pairEvents ++ [CmpEvent.testAcc] := by
  simp only [cmpRun, h, ne_eq, not_true, if_false, cmpLoop_events, List.range_eq_range']

theorem cmpRun_events_congr {s s' : State} (hA : s.lenA = s'.lenA) (hB : s.lenB = s'.lenB) :
    (cmpRun s).2 = (cmpRun s').2 := by
  by_cases h : s.lenA = s.lenB
  · rw [cmpRun_events_of_lenA_eq_lenB h, cmpRun_events_of_lenA_eq_lenB (by rwa [← hA, ← hB]), hA]
  · rw [cmpRun_of_lenA_ne_lenB h, cmpRun_of_lenA_ne_lenB (by rwa [← hA, ← hB])]

theorem cmpEvents_of_fits {s : State} (hA : s.lenA.toNat ≤ s.config.maxLen) (hB : s.lenB.toNat ≤ s.config.maxLen) :
    cmpEvents s = (cmpRun s).2 := by
  simp [cmpEvents, lenATooLong, lenBTooLong, hA, hB]

theorem cmpEvents_of_lenA_ne_lenB {s : State} (h : s.lenA ≠ s.lenB) : cmpEvents s = [] := by
  rw [cmpEvents, cmpRun_of_lenA_ne_lenB h, ite_self]

/-- Neither the length check nor the operations look at a byte. -/
theorem cmpEvents_congr {s s' : State} (hc : s.config = s'.config) (hA : s.lenA = s'.lenA) (hB : s.lenB = s'.lenB) :
    cmpEvents s = cmpEvents s' := by
  have hlongA : lenATooLong s = lenATooLong s' := by rw [lenATooLong, lenATooLong, hc, hA]
  have hlongB : lenBTooLong s = lenBTooLong s' := by rw [lenBTooLong, lenBTooLong, hc, hB]
  rw [cmpEvents, cmpEvents, hlongA, hlongB, cmpRun_events_congr hA hB]

/-- Settles O48: the three items are the rules of `cmpEvents`. -/
theorem comparatorIsConstantTime : Obligations.ComparatorIsConstantTime :=
  ⟨fun _ => cmpEvents_of_lenA_ne_lenB,
    fun _ h hfits => (cmpEvents_of_fits hfits (h ▸ hfits)).trans (cmpRun_events_of_lenA_eq_lenB h),
    fun _ _ => cmpEvents_congr⟩

/-! ## CMP (R60) -/

theorem Memory.readBytes_eq_iff_agreeBelow {m m' : Memory} {n : Nat} :
    m.readBytes 0 n = m'.readBytes 0 n ↔ m.agreeBelow n m' := by
  refine ⟨fun h i hi => ?_, Memory.readBytes_eq_of_agreeBelow⟩
  have hget := List.getElem_of_eq h (i := i) (by rwa [Memory.length_readBytes])
  rwa [Memory.getElem_readBytes, Memory.getElem_readBytes, Nat.zero_add] at hget

theorem operandA_eq_operandB_iff (s : State) :
    operandA s = operandB s ↔ s.lenA = s.lenB ∧ s.ibufA.agreeBelow s.lenA.toNat s.ibufB := by
  by_cases h : s.lenA = s.lenB
  · rw [operandA, operandB, ← h, Memory.readBytes_eq_iff_agreeBelow, and_iff_right rfl]
  · refine iff_of_false (fun heq => h (BitVec.eq_of_toNat_eq ?_)) fun hand => h hand.1
    rw [← length_operandA, heq, length_operandB]

/-- The scalar that CMP writes is 1 exactly on equal operands. -/
theorem cmpScalar_eq_ite (s : State) :
    (cmpRun s).1.zeroExtend 32 = if operandA s = operandB s then 1 else 0 := by
  rw [cmpRun_bit, tseq_eq_ite]
  split <;> rfl

/-- The length check comes before the comparison of the lengths: R60's `LEN_A = MAXLEN + 1`, `LEN_B = 6`. -/
theorem cmp_lengthError_witness : lengthError .cmp { State.reset with lenA := 257, lenB := 6 } :=
  .inl (by decide)

/-- Settles O13: CMP completes with the comparator's bit, which is 1 exactly if the lengths and all bytes agree, unless
a length is too long. -/
theorem cmpWritesEquality : Obligations.CmpWritesEquality := by
  refine ⟨rfl, fun s hA hB => ?_, fun s hl => exec_of_lengthError (i := .cmp) hl, by decide, by decide⟩
  have hfits : ¬ lengthError .cmp s := not_or.2 ⟨Nat.not_lt.2 hA, Nat.not_lt.2 hB⟩
  have hone (h : operandA s = operandB s) : (cmpRun s).1.zeroExtend 32 = (1 : Word) := by
    rw [cmpScalar_eq_ite, if_pos h]
  have hzero (h : operandA s ≠ operandB s) : (cmpRun s).1.zeroExtend 32 = (0 : Word) := by
    rw [cmpScalar_eq_ite, if_neg h]
  refine ⟨_, exec_cmp_of_fits hfits, rfl, congrArg (BitVec.zeroExtend 32) (cmpRun_bit s), fun hlen hbytes => ?_,
    fun hlen => ?_, fun i _ hi hbyte => ?_⟩
  · exact hone ((operandA_eq_operandB_iff s).2 ⟨hlen, hbytes⟩)
  · exact hzero fun h => hlen ((operandA_eq_operandB_iff s).1 h).1
  · exact hzero fun h => hbyte (((operandA_eq_operandB_iff s).1 h).2 i hi)

end Sys2Proof.Machine

/-!
# Exceptions (spec 60): which error code a command reports, what an error writes, and what follows it

SUPPORT. Proofs of the statements O5, O18, O19 and O20.
-/

namespace Sys2Proof.Machine

/-! ## No host action (R66) -/

/-- Settles O5: the rule of a step with no action waiting. -/
theorem nothingHappensWithoutAHostAction : Obligations.NothingHappensWithoutAHostAction :=
  fun _ => step_of_no_action

/-! ## What an error writes (R64) -/

/-- Of the ends of a command only the raised error leaves a code other than 0. -/
theorem eq_raiseError_of_step {s t : State} {w : Word} (h : step (s.issue (.regWrite 0x00 w)) = .next t)
    (herr : t.err ≠ .noError) : t = raiseError t.err { s with answer := none } := by
  rw [step_issue_command] at h
  rcases runCommand_ends w { s with answer := none } with ⟨c, -, hrun⟩ | ⟨d, -, -, hrun⟩ | ⟨o, v, -, hrun⟩ <;>
    cases hrun.symm.trans h
  · rfl
  · exact absurd rfl herr
  · exact absurd rfl herr

/-- Settles O19: the fields of a raised error. -/
theorem errorsLeaveNoResult : Obligations.ErrorsLeaveNoResult := by
  intro s w t h herr
  rw [eq_raiseError_of_step h herr]
  exact ⟨rfl, rfl, rfl, rfl, Memory.read_nil, rfl, rfl, rfl, rfl⟩

/-! ## Errors do not stick (R65) -/

/-- No word, legal or not, runs on what an earlier command left. -/
theorem runCommand_setResults (w : Word) (s : State) (d : Bool) (e : ErrorCode) (n v : Word) (o : BitVec 4)
    (m : Memory) :
    runCommand w { s with done := d, err := e, olen := n, res := v, off := o, obuf := m } = runCommand w s := by
  cases hw : decode w with
  | ok i =>
    rw [runCommand_of_decode hw, runCommand_of_decode hw]
    exact commandsReadNoResult i s d e n v o m
  | error r =>
    simp only [runCommand, hw]
    rfl

/-- Settles O20: the failed command wrote results only, and the next one reads none of them. -/
theorem errorsDoNotStick : Obligations.ErrorsDoNotStick := by
  intro s t w w' h herr
  rw [eq_raiseError_of_step h herr]
  exact runCommand_setResults w' { s with answer := none } true t.err 0 0 0 Memory.cleared

/-! ## The decoder's code (R46, R47, R48) -/

/-- The code that DEC reports for what the decoder answers. -/
def decoderCode : Except DecodeError (List Byte) → ErrorCode
  | .ok _    => .noError
  | .error e => e.toErrorCode

theorem b32dec_of_bad_symbol {text : List Byte} (hrun : padRun text ∈ [0, 1, 3, 4, 6])
    (h : ∃ c ∈ body text, val c = none) : b32dec text = .error .invalidAlphabet :=
  b32dec_of_symbolValues_none hrun ((symbolValues_eq_none _).2 h)

theorem exists_symbolValues {text : List Byte} (h : ∀ c ∈ text, val c ≠ none) :
    ∃ vs : List SymbolValue, text.map val = vs.map some := by
  have hsome : symbolValues text ≠ none := fun hnone =>
    let ⟨c, hc, hval⟩ := (symbolValues_eq_none text).1 hnone
    h c hc hval
  obtain ⟨vs, hvs⟩ := Option.ne_none_iff_exists'.1 hsome
  exact ⟨vs, (symbolValues_eq_some text vs).1 hvs⟩

theorem b32dec_of_trailingBitSet {text : List Byte} (hrun : padRun text ∈ [0, 1, 3, 4, 6])
    (h : trailingBitSet text) : b32dec text = .error .invalidPadding := by
  obtain ⟨vs, hvs, hbit⟩ := h
  exact (symbolBitsBecomeBytes text vs hrun hvs).1 ⟨true, hbit, rfl⟩

theorem b32dec_of_not_trailingBitSet {text : List Byte} (hrun : padRun text ∈ [0, 1, 3, 4, 6])
    (hbody : ∀ c ∈ body text, val c ≠ none) (h : ¬ trailingBitSet text) : ∃ d, b32dec text = .ok d := by
  obtain ⟨vs, hvs⟩ := exists_symbolValues hbody
  have hzero : ∀ b ∈ trailingBits vs, b = false := fun b hb =>
    Bool.eq_false_iff.2 fun hone => h ⟨vs, hvs, hone ▸ hb⟩
  obtain ⟨d, hd, -, -⟩ := (symbolBitsBecomeBytes text vs hrun hvs).2 hzero
  exact ⟨d, hd⟩

/-! ## The code of a command whose lengths fit (R63) -/

/-- ENC, TRUNC and CMP have no error beyond their operand lengths (R62). -/
theorem exec_err_of_fits {i : Instr} {s t : State} (hi : i ≠ .dec) (hfits : ¬ lengthError i s)
    (h : exec i s = .next t) : t.err = .noError := by
  cases i with
  | enc =>
    cases (exec_enc_of_fits hfits).symm.trans h
    rfl
  | dec => exact absurd rfl hi
  | trunc =>
    cases (exec_trunc_of_fits hfits).symm.trans h
    rfl
  | cmp =>
    cases (exec_cmp_of_fits hfits).symm.trans h
    rfl

theorem exec_dec_err {s t : State} (hfits : ¬ lengthError .dec s) (h : exec .dec s = .next t) :
    t.err = decoderCode (b32dec (operandA s)) := by
  cases hd : b32dec (operandA s) with
  | ok d =>
    cases (exec_dec_of_ok hfits hd).symm.trans h
    rfl
  | error e =>
    cases (exec_dec_of_error hfits hd).symm.trans h
    rfl

theorem exec_of_step {s t : State} {w : Word} {i : Instr} (hw : decode w = .ok i)
    (h : step (s.issue (.regWrite 0x00 w)) = .next t) : exec i { s with answer := none } = .next t := by
  rwa [step_issue_command, runCommand_of_decode hw] at h

/-- Settles O18: the first two causes are clauses of O6; after them ENC, TRUNC and CMP succeed, and DEC reports the
first of the decoder's steps that fails. -/
theorem errorCodesInPriorityOrder : Obligations.ErrorCodesInPriorityOrder := by
  refine ⟨⟨rfl, rfl, rfl, rfl, rfl, fun e => by cases e <;> decide⟩, fun s w => ?_⟩
  obtain ⟨t, ht, -, hillegal, hlength⟩ := everyCommandCompletes s w
  have hfits {i : Instr} (h : ¬ lengthError i s) : ¬ lengthError i { s with answer := none } :=
    mt (lengthError_answer_iff i s none).1 h
  refine ⟨t, ht, hillegal, hlength, fun i hw hl hi => exec_err_of_fits hi (hfits hl) (exec_of_step hw ht),
    fun hw hl => ?_⟩
  have herr : t.err = decoderCode (b32dec (operandA s)) :=
    exec_dec_err (s := { s with answer := none }) (hfits hl) (exec_of_step hw ht)
  rw [herr]
  refine ⟨fun hrun => ?_, fun hrun hbad => ?_, fun hrun hbody => ⟨fun hbit => ?_, fun hbit => ?_⟩⟩
  · rw [b32dec_of_padRun_not_mem hrun]
    rfl
  · rw [b32dec_of_bad_symbol hrun hbad]
    rfl
  · rw [b32dec_of_trailingBitSet hrun hbit]
    rfl
  · obtain ⟨d, hd⟩ := b32dec_of_not_trailingBitSet hrun hbody hbit
    rw [hd]
    rfl

end Sys2Proof.Machine

/-!
# Reset and hazards (spec 70): what a reset clears, the first command after it, and the copy of a result back

SUPPORT. Proofs of the statements O8, O9 and O29.
-/

namespace Sys2Proof.Machine

/-! ## The capacity of the copy back (R76) -/

/-- `n` bytes make `ceil(n / 5)` groups of eight characters, and a buffer of `m` bytes holds `floor(m / 8)` of them. -/
theorem encodedLength_le_iff (n m : Nat) : 8 * ((n + 4) / 5) ≤ m ↔ n ≤ 5 * (m / 8) := by
  omega

theorem step_issue_bufRead_refused {s : State} {b : Buffer} {i : Nat} (hi : bufferSize s.config b ≤ i) :
    step (s.issue (.bufRead b i)) = .refused .bufferIndex := by
  rw [step_issue, performAction, bufReadAction, if_neg (Nat.not_lt.2 hi)]

theorem step_issue_bufWrite_refused {s : State} {b : Buffer} {i : Nat} (v : Byte) (hi : bufferSize s.config b ≤ i) :
    step (s.issue (.bufWrite b i v)) = .refused .bufferIndex := by
  rw [step_issue, performAction, bufWriteAction, if_neg (Nat.not_lt.2 hi)]

/-- Settles O29: the length that ENC leaves in `OLEN` (R45) meets the two bounds by arithmetic, and an over-long `LEN_A`
is every command's length error. -/
theorem capacityOfTheCopyBack : Obligations.CapacityOfTheCopyBack := by
  refine ⟨fun s hc hl => ?_, rfl, fun s v hc hv => ?_, fun s i b hi => ?_⟩
  · obtain ⟨-, hencodes, -, -⟩ := encWritesTheBase32Text
    obtain ⟨t, ht, -, -, holen, -⟩ := hencodes s hc hl
    have hcap : (b32enc (operandA s)).length ≤ ocap s.config := length_b32enc_le_ocap (by rwa [length_operandA])
    rw [length_b32enc, length_operandA] at hcap
    refine ⟨t, ht, ?_⟩
    rw [holen]
    exact ⟨hcap, encodedLength_le_iff _ _⟩
  · exact ⟨{ s with lenA := v, answer := none }, rfl, rfl, rfl,
      fun i => exec_of_lengthError (lengthError_of_lenA_tooLong i hc hv)⟩
  · exact ⟨step_issue_bufRead_refused hi, step_issue_bufRead_refused hi, step_issue_bufWrite_refused b hi,
      step_issue_bufWrite_refused b hi⟩

/-! ## The Reset action (R70) -/

theorem step_issue_reset (s : State) :
    step (s.issue .reset) = .next { State.reset with config := s.config, pending := s.pending } := rfl

/-- Settles O8: a reset keeps nothing of the state before but its parameter and the waiting actions. -/
theorem resetClearsEveryStoredBit : Obligations.ResetClearsEveryStoredBit := fun s =>
  ⟨_, step_issue_reset s, statusWord_eq_ofNat _, rfl, rfl, rfl, rfl, rfl, rfl, rfl,
    fun i => ⟨Memory.read_nil i, Memory.read_nil i, Memory.read_nil i⟩⟩

/-! ## The first command after reset (R71) -/

theorem operandA_of_lenA_eq_zero {s : State} (h : s.lenA = 0) : operandA s = [] := by
  rw [operandA, h]
  rfl

theorem operandB_of_lenB_eq_zero {s : State} (h : s.lenB = 0) : operandB s = [] := by
  rw [operandB, h]
  rfl

theorem exec_enc_of_lenA_eq_zero {s : State} (hA : s.lenA = 0) :
    exec .enc s = .next (completeWithString [] s) := by
  rw [exec_enc_of_fits (by simp [lengthError, hA]), operandA_of_lenA_eq_zero hA]
  rfl

theorem exec_cmp_of_empty {s : State} (hA : s.lenA = 0) (hB : s.lenB = 0) :
    exec .cmp s = .next (completeWithScalar 0 1 s) := by
  rw [exec_cmp_of_fits (by simp [lengthError, hA, hB]), cmpScalar_eq_ite, operandA_of_lenA_eq_zero hA,
    operandB_of_lenB_eq_zero hB, if_pos rfl]

theorem exec_trunc_of_lenA_eq_zero {s : State} (hA : s.lenA = 0) :
    exec .trunc s = .next (raiseError .operandLength s) :=
  exec_of_lengthError (by simp [lengthError, hA])

/-- Settles O9: after a reset both operands are empty, so ENC and DEC (R49) give the empty string, CMP finds equal
strings, and TRUNC has no digest. -/
theorem firstCommandAfterReset : Obligations.FirstCommandAfterReset := by
  rintro _ c - rfl
  exact ⟨⟨_, exec_enc_of_lenA_eq_zero rfl, statusWord_eq_ofNat _, rfl⟩,
    ⟨_, emptyTextDecodesToNothing.2 _ rfl, statusWord_eq_ofNat _, rfl⟩,
    ⟨_, exec_cmp_of_empty rfl rfl, statusWord_eq_ofNat _, rfl⟩,
    ⟨_, exec_trunc_of_lenA_eq_zero rfl, statusWord_eq_ofNat _, rfl, rfl⟩⟩

end Sys2Proof.Machine
